-- ==== Sys2Proof/Word.lean ====
section
/-! DEFINITION. The word types of the core: 8-bit registers and memory bytes, 16-bit words and addresses, the 12-bit
address field, and the numbers of registers and keys (spec 00_scope.md R10). -/

namespace Sys2Proof

/-- An 8-bit value: a V register, a byte of memory, DT, WAKE, `rnd` (00_scope.md R10). -/
abbrev Byte := BitVec 8

/-- A 16-bit value: I, pc, a stack entry, an instruction word (00_scope.md R10). -/
abbrev Word := BitVec 16

/-- The 12-bit address field NNN (30_encoding.md R61). -/
abbrev Addr := BitVec 12

/-- The number of a register V0 to VF: every 4-bit field names one (10_state.md R21). -/
abbrev Reg := Fin 16

/-- A logical key index 0 to 15 (10_state.md R31). -/
abbrev KeyIndex := Fin 16

/-- VF, the register that is also the flag (10_state.md R22). -/
abbrev vf : Reg := 15

end Sys2Proof
end

