-- ==== Sys2Proof/Syntax.lean ====
section
/-! DEFINITION. The 34 instructions of spec/opcode_table.json, one constructor a row, in the table's order. -/

namespace Sys2Proof

/-- One instruction with its operands: `x`, `y` are register numbers, `nn` the immediate byte, `addr` the 12-bit
address NNN, and `n` the row count of DXYN (30_encoding.md R61, R62). -/
inductive Instr where
  /-- 00E0 -/
  | cls
  /-- 00EE -/
  | ret
  /-- 1NNN -/
  | jp (addr : Addr)
  /-- 2NNN -/
  | call (addr : Addr)
  /-- 3XNN -/
  | seImm (x : Reg) (nn : Byte)
  /-- 4XNN -/
  | sneImm (x : Reg) (nn : Byte)
  /-- 5XY0 -/
  | seReg (x y : Reg)
  /-- 6XNN -/
  | ldImm (x : Reg) (nn : Byte)
  /-- 7XNN -/
  | addImm (x : Reg) (nn : Byte)
  /-- 8XY0 -/
  | ldReg (x y : Reg)
  /-- 8XY1 -/
  | orReg (x y : Reg)
  /-- 8XY2 -/
  | andReg (x y : Reg)
  /-- 8XY3 -/
  | xorReg (x y : Reg)
  /-- 8XY4 -/
  | addReg (x y : Reg)
  /-- 8XY5 -/
  | subReg (x y : Reg)
  /-- 8XY6 -/
  | shrReg (x y : Reg)
  /-- 8XY7 -/
  | subnReg (x y : Reg)
  /-- 8XYE -/
  | shlReg (x y : Reg)
  /-- 9XY0 -/
  | sneReg (x y : Reg)
  /-- ANNN -/
  | ldI (addr : Addr)
  /-- BNNN -/
  | jpV0 (addr : Addr)
  /-- CXNN -/
  | rnd (x : Reg) (nn : Byte)
  /-- DXYN; `n` is the number of sprite rows, a count that `Instr.wf` bounds by its 4-bit field -/
  | drw (x y : Reg) (n : Nat)
  /-- EX9E -/
  | skp (x : Reg)
  /-- EXA1 -/
  | sknp (x : Reg)
  /-- FX07 -/
  | ldVxDt (x : Reg)
  /-- FX0A -/
  | ldVxK (x : Reg)
  /-- FX15 -/
  | ldDtVx (x : Reg)
  /-- FX18 -/
  | ldStVx (x : Reg)
  /-- FX1E -/
  | addIVx (x : Reg)
  /-- FX29 -/
  | ldFVx (x : Reg)
  /-- FX33 -/
  | ldBVx (x : Reg)
  /-- FX55 -/
  | storeRegs (x : Reg)
  /-- FX65 -/
  | loadRegs (x : Reg)
  deriving DecidableEq, Repr

end Sys2Proof
end

