-- ==== Sys2Proof/WellFormed.lean ====
section
/-! DEFINITION. Which terms of `Instr` are instructions of the hardware. Registers, immediates and addresses are
bounded by their types; the one check left is that DXYN's row count fits its 4-bit field (30_encoding.md R62). -/

namespace Sys2Proof

/-- The instruction has an encoding: DXYN's N is 0 to 15 (30_encoding.md R62 "a 4-bit unsigned count, 0 to 15"). -/
def Instr.wf (i : Instr) : Bool :=
  match i with
  | .drw _ _ n => decide (n < 16)
  | .cls | .ret | .jp _ | .call _ | .seImm _ _ | .sneImm _ _ | .seReg _ _ | .ldImm _ _ | .addImm _ _ | .ldReg _ _
  | .orReg _ _ | .andReg _ _ | .xorReg _ _ | .addReg _ _ | .subReg _ _ | .shrReg _ _ | .subnReg _ _ | .shlReg _ _
  | .sneReg _ _ | .ldI _ | .jpV0 _ | .rnd _ _ | .skp _ | .sknp _ | .ldVxDt _ | .ldVxK _ | .ldDtVx _ | .ldStVx _
  | .addIVx _ | .ldFVx _ | .ldBVx _ | .storeRegs _ | .loadRegs _ => true

end Sys2Proof
end

