-- ==== Sys2Proof/Decode.lean ====
section
/-! DEFINITION. The decoder and the encoder (spec 30_encoding.md). `decodeWord` follows the dispatch of R63 to R69 and
names the word it does not know; `encode` writes each instruction's word from the "encoding" column of
spec/opcode_table.json; `opcodeTable` is that table's mask and match columns. -/

namespace Sys2Proof

/-- Why bytes are no instruction. -/
inductive DecodeError where
  /-- The word matches no row of the opcode table (30_encoding.md R69). -/
  | unknownInstruction (w : Word)
  /-- Fewer than two bytes are left: every instruction is one 16-bit word (30_encoding.md R60). -/
  | truncated
  deriving DecidableEq, Repr

/-- The big-endian word of two bytes, the one at the lower address first (20_memory.md R46). -/
def wordOfBytes (hi lo : Byte) : Word := hi ++ lo

/-- Bits 15:8 of a word, the byte at the lower address. -/
def hiByte (w : Word) : Byte := w.extractLsb' 8 8

/-- Bits 7:0 of a word, the byte at the higher address. -/
def loByte (w : Word) : Byte := w.extractLsb' 0 8

/-- op = w[15:12] (30_encoding.md R61). -/
def opField (w : Word) : BitVec 4 := w.extractLsb' 12 4

/-- X = w[11:8]. -/
def xField (w : Word) : Reg := (w.extractLsb' 8 4).toFin

/-- Y = w[7:4]. -/
def yField (w : Word) : Reg := (w.extractLsb' 4 4).toFin

/-- N = w[3:0]. -/
def nField (w : Word) : BitVec 4 := w.extractLsb' 0 4

/-- NN = w[7:0]. -/
def nnField (w : Word) : Byte := w.extractLsb' 0 8

/-- NNN = w[11:0]. -/
def nnnField (w : Word) : Addr := w.extractLsb' 0 12

/-- Group 0 is matched on all 16 bits (30_encoding.md R64). -/
def decodeGroup0 (w : Word) : Except DecodeError Instr :=
  if w = 0x00E0 then .ok .cls
  else if w = 0x00EE then .ok .ret
  else .error (.unknownInstruction w)

/-- Group 8, selected by N (30_encoding.md R65). -/
def decodeGroup8 (w : Word) : Except DecodeError Instr :=
  if nField w = 0x0 then .ok (.ldReg (xField w) (yField w))
  else if nField w = 0x1 then .ok (.orReg (xField w) (yField w))
  else if nField w = 0x2 then .ok (.andReg (xField w) (yField w))
  else if nField w = 0x3 then .ok (.xorReg (xField w) (yField w))
  else if nField w = 0x4 then .ok (.addReg (xField w) (yField w))
  else if nField w = 0x5 then .ok (.subReg (xField w) (yField w))
  else if nField w = 0x6 then .ok (.shrReg (xField w) (yField w))
  else if nField w = 0x7 then .ok (.subnReg (xField w) (yField w))
  else if nField w = 0xE then .ok (.shlReg (xField w) (yField w))
  else .error (.unknownInstruction w)

/-- Group E, selected by NN (30_encoding.md R66). -/
def decodeGroupE (w : Word) : Except DecodeError Instr :=
  if nnField w = 0x9E then .ok (.skp (xField w))
  else if nnField w = 0xA1 then .ok (.sknp (xField w))
  else .error (.unknownInstruction w)

/-- Group F, selected by NN (30_encoding.md R67). -/
def decodeGroupF (w : Word) : Except DecodeError Instr :=
  if nnField w = 0x07 then .ok (.ldVxDt (xField w))
  else if nnField w = 0x0A then .ok (.ldVxK (xField w))
  else if nnField w = 0x15 then .ok (.ldDtVx (xField w))
  else if nnField w = 0x18 then .ok (.ldStVx (xField w))
  else if nnField w = 0x1E then .ok (.addIVx (xField w))
  else if nnField w = 0x29 then .ok (.ldFVx (xField w))
  else if nnField w = 0x33 then .ok (.ldBVx (xField w))
  else if nnField w = 0x55 then .ok (.storeRegs (xField w))
  else if nnField w = 0x65 then .ok (.loadRegs (xField w))
  else .error (.unknownInstruction w)

/-- Groups 5 and 9 need N = 0 (30_encoding.md R68). -/
def decodeNeedsN0 (w : Word) (i : Instr) : Except DecodeError Instr :=
  if nField w = 0x0 then .ok i else .error (.unknownInstruction w)

/-- The instruction a word stands for, or the unknown word by name: dispatch on op (30_encoding.md R63). -/
def decodeWord (w : Word) : Except DecodeError Instr :=
  match (opField w).toNat with
  | 0x0 => decodeGroup0 w
  | 0x1 => .ok (.jp (nnnField w))
  | 0x2 => .ok (.call (nnnField w))
  | 0x3 => .ok (.seImm (xField w) (nnField w))
  | 0x4 => .ok (.sneImm (xField w) (nnField w))
  | 0x5 => decodeNeedsN0 w (.seReg (xField w) (yField w))
  | 0x6 => .ok (.ldImm (xField w) (nnField w))
  | 0x7 => .ok (.addImm (xField w) (nnField w))
  | 0x8 => decodeGroup8 w
  | 0x9 => decodeNeedsN0 w (.sneReg (xField w) (yField w))
  | 0xA => .ok (.ldI (nnnField w))
  | 0xB => .ok (.jpV0 (nnnField w))
  | 0xC => .ok (.rnd (xField w) (nnField w))
  | 0xD => .ok (.drw (xField w) (yField w) (nField w).toNat)
  | 0xE => decodeGroupE w
  | _ => decodeGroupF w

/-- The first instruction of a byte sequence and the bytes after it: a decoder always consumes exactly 2 bytes
(30_encoding.md R60). -/
def decode (bytes : List Byte) : Except DecodeError (Instr × List Byte) :=
  match bytes with
  | hi :: lo :: rest =>
    match decodeWord (wordOfBytes hi lo) with
    | .ok i => .ok (i, rest)
    | .error e => .error e
  | _ => .error .truncated

/-- A register number as the 4-bit field of a word. -/
def regBits (r : Reg) : BitVec 4 := BitVec.ofFin r

/-- The word op NNN. -/
def wordNnn (op : BitVec 4) (addr : Addr) : Word := op ++ addr

/-- The word op X NN. -/
def wordXnn (op : BitVec 4) (x : Reg) (nn : Byte) : Word := op ++ (regBits x ++ nn)

/-- The word op X Y n. -/
def wordXyn (op : BitVec 4) (x y : Reg) (n : BitVec 4) : Word := op ++ (regBits x ++ (regBits y ++ n))

/-- The word of an instruction, from the "encoding" column of spec/opcode_table.json (30_encoding.md R61). -/
def encode (i : Instr) : Word :=
  match i with
  | .cls => 0x00E0
  | .ret => 0x00EE
  | .jp addr => wordNnn 0x1 addr
  | .call addr => wordNnn 0x2 addr
  | .seImm x nn => wordXnn 0x3 x nn
  | .sneImm x nn => wordXnn 0x4 x nn
  | .seReg x y => wordXyn 0x5 x y 0x0
  | .ldImm x nn => wordXnn 0x6 x nn
  | .addImm x nn => wordXnn 0x7 x nn
  | .ldReg x y => wordXyn 0x8 x y 0x0
  | .orReg x y => wordXyn 0x8 x y 0x1
  | .andReg x y => wordXyn 0x8 x y 0x2
  | .xorReg x y => wordXyn 0x8 x y 0x3
  | .addReg x y => wordXyn 0x8 x y 0x4
  | .subReg x y => wordXyn 0x8 x y 0x5
  | .shrReg x y => wordXyn 0x8 x y 0x6
  | .subnReg x y => wordXyn 0x8 x y 0x7
  | .shlReg x y => wordXyn 0x8 x y 0xE
  | .sneReg x y => wordXyn 0x9 x y 0x0
  | .ldI addr => wordNnn 0xA addr
  | .jpV0 addr => wordNnn 0xB addr
  | .rnd x nn => wordXnn 0xC x nn
  | .drw x y n => wordXyn 0xD x y (BitVec.ofNat 4 n)
  | .skp x => wordXnn 0xE x 0x9E
  | .sknp x => wordXnn 0xE x 0xA1
  | .ldVxDt x => wordXnn 0xF x 0x07
  | .ldVxK x => wordXnn 0xF x 0x0A
  | .ldDtVx x => wordXnn 0xF x 0x15
  | .ldStVx x => wordXnn 0xF x 0x18
  | .addIVx x => wordXnn 0xF x 0x1E
  | .ldFVx x => wordXnn 0xF x 0x29
  | .ldBVx x => wordXnn 0xF x 0x33
  | .storeRegs x => wordXnn 0xF x 0x55
  | .loadRegs x => wordXnn 0xF x 0x65

/-- The two bytes of an instruction, in address order (30_encoding.md R60). -/
def encodeBytes (i : Instr) : List Byte := [hiByte (encode i), loByte (encode i)]

/-- The "mask" and "match" columns of spec/opcode_table.json, row by row. -/
def opcodeTable : List (Word × Word) :=
  [(0xFFFF, 0x00E0), (0xFFFF, 0x00EE), (0xF000, 0x1000), (0xF000, 0x2000), (0xF000, 0x3000), (0xF000, 0x4000),
   (0xF00F, 0x5000), (0xF000, 0x6000), (0xF000, 0x7000)] ++
  [(0xF00F, 0x8000), (0xF00F, 0x8001), (0xF00F, 0x8002), (0xF00F, 0x8003), (0xF00F, 0x8004), (0xF00F, 0x8005),
   (0xF00F, 0x8006), (0xF00F, 0x8007), (0xF00F, 0x800E), (0xF00F, 0x9000)] ++
  [(0xF000, 0xA000), (0xF000, 0xB000), (0xF000, 0xC000), (0xF000, 0xD000), (0xF0FF, 0xE09E), (0xF0FF, 0xE0A1)] ++
  [(0xF0FF, 0xF007), (0xF0FF, 0xF00A), (0xF0FF, 0xF015), (0xF0FF, 0xF018), (0xF0FF, 0xF01E), (0xF0FF, 0xF029),
   (0xF0FF, 0xF033), (0xF0FF, 0xF055), (0xF0FF, 0xF065)]

/-- The instruction this decoder reads from a table word: bit 0 of `w` is the least significant bit of the one
16-bit word, which is laid out big-endian and given to `decode`. -/
def decodeTableWord (nbits w : Nat) : Option Instr :=
  let word : Word := BitVec.ofNat 16 (w % 2 ^ nbits)
  match decode [hiByte word, loByte word] with
  | .ok (i, _) => some i
  | .error _ => none

end Sys2Proof
end

