-- ==== Sys2Proof/Config.lean ====
section
/-! DEFINITION. The parameters of 00_scope.md R6, fixed for this hardware by R7, and the one free value of the
core, the random byte of a STEP (60_exceptions.md R163). -/

namespace Sys2Proof

/-- MEM_SIZE: addresses 0x000 to 0xFFF. -/
abbrev Config.memSize : Nat := 0x1000

/-- PROGRAM_BASE: where LOAD puts the program. -/
abbrev Config.programBase : Nat := 0x200

/-- PC_RESET. -/
abbrev Config.pcReset : Word := 0x200

/-- ROM_MAX: the longest program that fits above PROGRAM_BASE. -/
abbrev Config.romMax : Nat := 3584

/-- GLYPH_BYTES: the bytes of one font glyph. -/
abbrev Config.glyphBytes : Nat := 5

/-- FB_WIDTH. -/
abbrev Config.fbWidth : Nat := 64

/-- FB_HEIGHT. -/
abbrev Config.fbHeight : Nat := 32

/-- STACK_DEPTH. -/
abbrev Config.stackDepth : Nat := 16

/-- RND, the FREE VALUE: the random byte the host brings with its n-th STEP. Nothing is known of it: the generator is
outside the core and has no distribution and no relation between steps (60_exceptions.md R163; log 2). -/
opaque Config.rndByte : Nat → Byte

end Sys2Proof
end

