-- ==== Sys2Proof/Machine/State.lean ====
section
/-! DEFINITION. The state of the core (spec 10_state.md R20), the host's commands (60_exceptions.md R160), the reasons a
step can stop, and the state after reset (10_state.md R38). -/

namespace Sys2Proof.Machine

/-- EXEC, the execution state (10_state.md R33). -/
inductive ExecState where
  | running
  | waitingForKey
  | faulted
  deriving DecidableEq, Repr

/-- The kinds of fatal error a FAULT record names (60_exceptions.md R150). -/
inductive FatalKind where
  | none
  | unknownInstruction
  | stackUnderflow
  | addressOutOfRange
  | stackOverflow
  | keyIndexOutOfRange
  | iOverflow
  deriving DecidableEq, Repr

/-- FAULT, the fault record (10_state.md R35). -/
structure FaultRecord where
  kind : FatalKind
  pc : Word
  opcode : Word
  opcodeValid : Bool
  deriving DecidableEq, Repr

/-- The FAULT record of a core that has met no fatal error (10_state.md R38). -/
def FaultRecord.clear : FaultRecord := { kind := .none, pc := 0, opcode := 0, opcodeValid := false }

/-- The response of a LOAD command (60_exceptions.md R164). -/
inductive LoadResponse where
  | loadOk
  | loadRejected
  deriving DecidableEq, Repr

/-- The commands the host drives the core by (60_exceptions.md R160). -/
inductive Command where
  | reset
  | load (rom : List Byte)
  | step (rnd : Byte)
  | tick
  | keyDown (k : KeyIndex)
  | keyUp (k : KeyIndex)
  deriving DecidableEq, Repr

/-- `Mem`: the cells that differ from the reset contents, addresses strictly rising (`Memory.wf`). -/
abbrev Memory := List Host.Cell

/-- `Fb`: the 32 rows from the top, each 64 pixels; bit x of row y is the pixel at column x (10_state.md R32; log 8). -/
abbrev Framebuffer := Vector (BitVec 64) 32

/-- The state: every piece of 10_state.md R20, the response of the last LOAD that the status port returns
(60_exceptions.md R167), and the model's own fields `inputs`, `rnd` and `draws`, which hold the host's inputs. -/
structure State where
  /-- `Mem` (20_memory.md R40) -/
  mem : Memory
  /-- `V[0..15]` (10_state.md R21) -/
  v : Vector Byte 16
  /-- `I` (10_state.md R24) -/
  i : Word
  /-- `pc` (10_state.md R25) -/
  pc : Word
  /-- `Stack`, the top entry first (10_state.md R26; log 9) -/
  stack : List Word
  /-- `DT` (10_state.md R29) -/
  dt : Byte
  /-- `Key[0..15]`, true = pressed (10_state.md R31) -/
  keys : Vector Bool 16
  /-- `Fb[x][y]` (10_state.md R32) -/
  fb : Framebuffer
  /-- `EXEC` (10_state.md R33) -/
  execState : ExecState
  /-- `WAKE` (10_state.md R34) -/
  wake : Byte
  /-- `FAULT` (10_state.md R35) -/
  faultRecord : FaultRecord
  /-- the response of the last LOAD, none before the first (60_exceptions.md R167; log 4) -/
  loadResponse : Option LoadResponse
  /-- the host commands not yet processed, oldest first; with none left the host goes on issuing STEP (log 1) -/
  inputs : List Command
  /-- `rnd`, the random input of the STEP being executed (60_exceptions.md R163; log 2) -/
  rnd : Byte
  /-- how many STEPs have brought a random byte: the argument of the free value `Config.rndByte` (log 2) -/
  draws : Nat
  deriving DecidableEq, Repr

/-- What stops the model. No instruction raises one: the core's fatal errors are next states in which EXEC is Faulted
(60_exceptions.md R152). -/
inductive Fault where
  /-- Raised by KEY_UP in WaitingForKey when WAKE is above 15 and so names no register, for which the spec has no rule
  (10_state.md R34 "after reset it holds 0 to 15"). Safe: the model stops, and no run from reset gets there (log 6). -/
  | wakeNamesNoRegister
  deriving DecidableEq, Repr

/-- What the model gives no meaning. -/
inductive Refusal where
  /-- Raised by an arm of `exec` whose instruction has no meaning yet; no arm is left that raises it. Safe. -/
  | notModelled (mnemonic : String)
  deriving DecidableEq, Repr

/-- The core right after RESET (10_state.md R38, 70_reset_and_hazards.md R180). `mem` lists nothing: unlisted addresses
read as the reset contents, the font and zeros. The last four fields are the model's choice (log 1, 2, 4). -/
def State.reset : State where
  mem := []
  v := Vector.replicate 16 0
  i := 0
  pc := Config.pcReset
  stack := []
  dt := 0
  keys := Vector.replicate 16 false
  fb := Vector.replicate 32 0
  execState := .running
  wake := 0
  faultRecord := FaultRecord.clear
  loadResponse := none
  inputs := []
  rnd := 0
  draws := 0

end Sys2Proof.Machine
end

