-- ==== Sys2Proof/Machine/Ops.lean ====
section
/-! DEFINITION. The named operations every meaning is written over: memory, registers, the call stack, the fetch, and
the one operation that enters Faulted (spec 20_memory.md, 10_state.md, 60_exceptions.md R152). There is no return from
a fault beside it: only RESET leaves Faulted (60_exceptions.md R154), in Machine/Commands.lean. -/

namespace Sys2Proof.Machine

/-- The outcome of a meaning or a step. -/
abbrev Result := Host.Outcome State Fault Refusal

/-! ### Memory -/

/-- The 16 glyphs of the font, 0 to F, five bytes each (20_memory.md R43). -/
def fontGlyphs : List (List Byte) :=
  [[0xF0, 0x90, 0x90, 0x90, 0xF0], [0x20, 0x60, 0x20, 0x20, 0x70],
   [0xF0, 0x10, 0xF0, 0x80, 0xF0], [0xF0, 0x10, 0xF0, 0x10, 0xF0]] ++
  [[0x90, 0x90, 0xF0, 0x10, 0x10], [0xF0, 0x80, 0xF0, 0x10, 0xF0],
   [0xF0, 0x80, 0xF0, 0x90, 0xF0], [0xF0, 0x10, 0x20, 0x40, 0x40]] ++
  [[0xF0, 0x90, 0xF0, 0x90, 0xF0], [0xF0, 0x90, 0xF0, 0x10, 0xF0],
   [0xF0, 0x90, 0xF0, 0x90, 0x90], [0xE0, 0x90, 0xE0, 0x90, 0xE0]] ++
  [[0xF0, 0x80, 0x80, 0x80, 0xF0], [0xE0, 0x90, 0x90, 0x90, 0xE0],
   [0xF0, 0x80, 0xF0, 0x80, 0xF0], [0xF0, 0x80, 0xF0, 0x80, 0x80]]

/-- The 80 bytes of the font, in address order from 0x000. -/
def font : List Byte := fontGlyphs.flatten

/-- What an address reads as until it is written: the font in 0x000 to 0x04F and zero above it (10_state.md R38). -/
def resetByte (a : Nat) : Byte := font.getD a 0

/-- The byte at an address, whether or not the address exists (`Memory.read` is the checked access). -/
def Memory.get : Memory → Nat → Byte
  | [], a => resetByte a
  | (b, w) :: rest, a => if a = b then w else Memory.get rest a

/-- List a byte at an address, keeping the addresses rising. -/
def Memory.insert : Memory → Nat → Byte → Memory
  | [], a, u => [(a, u)]
  | (b, w) :: rest, a, u =>
    if a < b then (a, u) :: (b, w) :: rest
    else if a = b then (a, u) :: rest
    else (b, w) :: Memory.insert rest a u

/-- Take an address off the list. -/
def Memory.erase (m : Memory) (a : Nat) : Memory := m.filter fun c => decide (c.1 ≠ a)

/-- Store a byte, keeping the canonical form: a byte equal to the reset contents is not listed. -/
def Memory.put (m : Memory) (a : Nat) (u : Byte) : Memory :=
  if u = resetByte a then m.erase a else m.insert a u

/-- The cells are at addresses of memory from `lo` on, strictly rising, and each differs from the reset contents. -/
def Memory.wfFrom : Nat → Memory → Bool
  | _, [] => true
  | lo, (a, u) :: rest =>
    decide (lo ≤ a) && decide (a < Config.memSize) && decide (u ≠ resetByte a) && Memory.wfFrom (a + 1) rest

/-- The canonical form of memory: equal memories are equal lists. -/
def Memory.wf (m : Memory) : Bool := Memory.wfFrom 0 m

/-- The n addresses from `a` on all exist: the range check of 20_memory.md R45, address by address; nothing is checked
when nothing is accessed (43_display.md R121, N = 0). -/
def inRange (a n : Nat) : Bool := decide (n = 0) || decide (a + n ≤ Config.memSize)

/-- MemRead(addr, 1); none is ADDRESS_OUT_OF_RANGE (00_scope.md R11, 20_memory.md R45). -/
def Memory.read (m : Memory) (a : Nat) : Option Byte :=
  if a < Config.memSize then some (m.get a) else none

/-- MemRead of n bytes at ascending addresses; none if any of them is out of range. -/
def Memory.readBytes (m : Memory) (a n : Nat) : Option (List Byte) :=
  if inRange a n then some ((List.range n).map fun k => m.get (a + k)) else none

/-- Store bytes at ascending addresses, unchecked. -/
def Memory.putBytes : Memory → Nat → List Byte → Memory
  | m, _, [] => m
  | m, a, u :: us => Memory.putBytes (m.put a u) (a + 1) us

/-- MemWrite of bytes at ascending addresses; none, with nothing written, if any of them is out of range. -/
def Memory.writeBytes (m : Memory) (a : Nat) (us : List Byte) : Option Memory :=
  if inRange a us.length then some (m.putBytes a us) else none

/-! ### One update a field -/

def State.setMem (s : State) (m : Memory) : State := { s with mem := m }
def State.setReg (s : State) (x : Reg) (u : Byte) : State := { s with v := s.v.set x u }
def State.setI (s : State) (a : Word) : State := { s with i := a }
def State.setPc (s : State) (a : Word) : State := { s with pc := a }
def State.setStack (s : State) (l : List Word) : State := { s with stack := l }
def State.setDt (s : State) (u : Byte) : State := { s with dt := u }
def State.setKey (s : State) (k : KeyIndex) (p : Bool) : State := { s with keys := s.keys.set k p }
def State.setFb (s : State) (f : Framebuffer) : State := { s with fb := f }
def State.setExecState (s : State) (e : ExecState) : State := { s with execState := e }
def State.setWake (s : State) (u : Byte) : State := { s with wake := u }
def State.setFaultRecord (s : State) (r : FaultRecord) : State := { s with faultRecord := r }
def State.setLoadResponse (s : State) (r : LoadResponse) : State := { s with loadResponse := some r }
def State.setInputs (s : State) (l : List Command) : State := { s with inputs := l }

/-- The random byte of a STEP arrives: it is latched, and counted as a draw (60_exceptions.md R163). -/
def State.latchRnd (s : State) (r : Byte) : State := { s with rnd := r, draws := s.draws + 1 }

/-! ### Registers, keys, pc -/

/-- V[x] (00_scope.md R11). -/
def State.reg (s : State) (x : Reg) : Byte := s.v.get x

/-- VF as a flag (10_state.md R22). -/
def State.setFlag (s : State) (u : Byte) : State := s.setReg vf u

/-- Key[k]. -/
def State.key (s : State) (k : KeyIndex) : Bool := s.keys.get k

/-- Key[u] for a register value, none when it names no key (44_keypad_timer.md R130). -/
def State.keyOf (s : State) (u : Byte) : Option Bool :=
  if h : u.toNat < 16 then some (s.key ⟨u.toNat, h⟩) else none

/-- V[0] to V[x], in order (42_index_memory.md R114). -/
def State.regsUpTo (s : State) (x : Reg) : List Byte := s.v.toList.take (x.val + 1)

/-- Write bytes to V[k], V[k+1], … (42_index_memory.md R115). -/
def State.setRegsFrom : State → Nat → List Byte → State
  | s, _, [] => s
  | s, k, u :: us => State.setRegsFrom (if h : k < 16 then s.setReg ⟨k, h⟩ u else s) (k + 1) us

/-- pc <- pc + 2: the advance of the fetch (30_encoding.md R71) and the skip (40_control_flow.md R89). -/
def State.advance (s : State) : State := s.setPc (s.pc + 2)

/-- The skip of 40_control_flow.md R89, taken when `c` holds. -/
def State.skipIf (s : State) (c : Bool) : State := if c then s.advance else s

/-! ### The call stack -/

/-- Push(v); none is STACK_OVERFLOW (10_state.md R27). -/
def State.push (s : State) (a : Word) : Option State :=
  if s.stack.length < Config.stackDepth then some (s.setStack (a :: s.stack)) else none

/-- Pop(), the popped entry and the state without it; none is STACK_UNDERFLOW (10_state.md R28). -/
def State.pop (s : State) : Option (Word × State) :=
  match s.stack with
  | [] => none
  | a :: rest => some (a, s.setStack rest)

/-! ### Fetch -/

/-- The word at pc, big-endian; none when pc or pc + 1 is out of range (30_encoding.md R70, 20_memory.md R46). -/
def State.fetch (s : State) : Option Word :=
  match s.mem.read s.pc.toNat, s.mem.read (s.pc.toNat + 1) with
  | some hi, some lo => some (wordOfBytes hi lo)
  | _, _ => none

/-! ### Fatal errors -/

/-- The numeric code of a kind, as the status port shows it (60_exceptions.md R150). -/
def FatalKind.code (k : FatalKind) : BitVec 3 :=
  match k with
  | .none => 0
  | .unknownInstruction => 1
  | .stackUnderflow => 2
  | .addressOutOfRange => 3
  | .stackOverflow => 4
  | .keyIndexOutOfRange => 5
  | .iOverflow => 6

/-- Entering Faulted from the state before the instruction: nothing but EXEC and FAULT changes, and pc stays at the
instruction (60_exceptions.md R152). `opcode` is none when the fetch itself fails (R150). -/
def State.enterFaulted (s : State) (k : FatalKind) (opcode : Option Word) : State :=
  (s.setFaultRecord { kind := k, pc := s.pc, opcode := opcode.getD 0, opcodeValid := opcode.isSome }).setExecState .faulted

/-- raise K by the instruction `i`, whose pc is still its own address: every write of it is discarded, and FAULT names
its word (00_scope.md R12, 60_exceptions.md R152). -/
def raise (k : FatalKind) (i : Instr) (s : State) : Result := .next (s.enterFaulted k (some (encode i)))

end Sys2Proof.Machine
end

