-- ==== Sys2Proof/Machine/Flags.lean ====
section
/-! DEFINITION. Every value VF takes as a flag (spec 10_state.md R22; 41_alu.md R93 to R100; 43_display.md R125), each
computed from the exact operands. -/

namespace Sys2Proof.Machine

/-- A flag value: 1 or 0. -/
def flagOf (c : Bool) : Byte := if c then 1 else 0

/-- Carry of 8XY4: 1 if the unwrapped sum exceeds 255 (41_alu.md R96). -/
def carryFlag (vx vy : Byte) : Byte := flagOf (decide (vx.toNat + vy.toNat > 255))

/-- No-borrow of `a` minus `b`: 0 if b > a, else 1 (41_alu.md R97, R99). -/
def noBorrowFlag (a b : Byte) : Byte := flagOf (!decide (b.toNat > a.toNat))

/-- The bit 8XY6 shifts out: bit 0 (41_alu.md R98). -/
def shiftedOutRight (vy : Byte) : Byte := vy &&& 1

/-- The bit 8XYE shifts out: bit 7 (41_alu.md R100). -/
def shiftedOutLeft (vy : Byte) : Byte := (vy >>> 7) &&& 1

/-- The flag of the logical operations, always 0 (41_alu.md R93 to R95). -/
def logicFlag : Byte := 0

/-- The collision flag of DXYN: 1 if a pixel went from off to on (43_display.md R125). -/
def collisionFlag (hit : Bool) : Byte := flagOf hit

end Sys2Proof.Machine
end

