-- ==== Sys2Proof/Machine/Operands.lean ====
section
/-! DEFINITION. The operand forms of the core: zero-extended immediates and registers (spec 30_encoding.md R62), the
jump targets (40_control_flow.md R88), and the data addresses formed from I (42_index_memory.md R116). -/

namespace Sys2Proof.Machine

/-- zext_16(NNN) (30_encoding.md R62). -/
def zextAddr (addr : Addr) : Word := addr.setWidth 16

/-- zext_16 of a byte (00_scope.md R11). -/
def zextByte (u : Byte) : Word := u.setWidth 16

/-- zext_8 of a 4-bit number: a register number in WAKE, a key index in V[WAKE] (44_keypad_timer.md R135, R137). -/
def zextNibble (k : Fin 16) : Byte := BitVec.ofNat 8 k.val

/-- The target of BNNN: zext_16(NNN) + zext_16(V0) (40_control_flow.md R87). -/
def State.targetV0 (s : State) (addr : Addr) : Word := zextAddr addr + zextByte (s.reg 0)

/-- The I-indirect data address I + k, computed without wrap (20_memory.md R45, 42_index_memory.md R116). -/
def State.dataAddr (s : State) (k : Nat) : Nat := s.i.toNat + k

/-- The n bytes at I, I+1, …; none if one is out of range (42_index_memory.md R115, 43_display.md R126). -/
def State.loadAtI (s : State) (n : Nat) : Option (List Byte) := s.mem.readBytes (s.dataAddr 0) n

/-- Store bytes at I, I+1, …; none, with nothing written, if one is out of range (42_index_memory.md R113, R114). -/
def State.storeAtI (s : State) (us : List Byte) : Option State :=
  (s.mem.writeBytes (s.dataAddr 0) us).map s.setMem

/-- I <- I + X + 1, the post-increment of FX55 and FX65 (42_index_memory.md R114, R115). -/
def State.bumpI (s : State) (x : Reg) : State := s.setI (s.i + BitVec.ofNat 16 (x.val + 1))

/-- The sum of FX1E, unbounded (42_index_memory.md R111). -/
def State.sumIVx (s : State) (x : Reg) : Nat := s.i.toNat + (s.reg x).toNat

/-- The glyph address of FX29, the one address taken modulo the memory size (20_memory.md R51, 42_index_memory.md R112). -/
def glyphAddr (u : Byte) : Word := BitVec.ofNat 16 (u.toNat * Config.glyphBytes % Config.memSize)

/-- The three decimal digits of a byte, hundreds first (42_index_memory.md R113). -/
def bcdDigits (u : Byte) : List Byte :=
  [BitVec.ofNat 8 (u.toNat / 100), BitVec.ofNat 8 (u.toNat / 10 % 10), BitVec.ofNat 8 (u.toNat % 10)]

end Sys2Proof.Machine
end

