-- ==== Sys2Proof/Machine/Alu.lean ====
section
/-! DEFINITION. The meanings of the ALU family (spec 41_alu.md R90 to R101). Each reads its operands from the state
before the instruction and then writes in the order its rule lists, the fetch advance first. -/

namespace Sys2Proof.Machine

/-- A result and no flag. -/
def writeResult (x : Reg) (r : Byte) (s : State) : Result := .next (s.advance.setReg x r)

/-- The result, then the flag: with X = F the flag stays (41_alu.md R93 to R97, R99). -/
def writeResultThenFlag (x : Reg) (r flag : Byte) (s : State) : Result := .next ((s.advance.setReg x r).setFlag flag)

/-- The flag, then the result: with X = F the result stays (41_alu.md R98, R100). -/
def writeFlagThenResult (x : Reg) (r flag : Byte) (s : State) : Result := .next ((s.advance.setFlag flag).setReg x r)

/-- 6XNN (R90). -/
def execLdImm (x : Reg) (nn : Byte) (s : State) : Result := writeResult x nn s

/-- 7XNN (R91): wraps, no flag. -/
def execAddImm (x : Reg) (nn : Byte) (s : State) : Result := writeResult x (s.reg x + nn) s

/-- 8XY0 (R92). -/
def execLdReg (x y : Reg) (s : State) : Result := writeResult x (s.reg y) s

/-- 8XY1 (R93). -/
def execOrReg (x y : Reg) (s : State) : Result := writeResultThenFlag x (s.reg x ||| s.reg y) logicFlag s

/-- 8XY2 (R94). -/
def execAndReg (x y : Reg) (s : State) : Result := writeResultThenFlag x (s.reg x &&& s.reg y) logicFlag s

/-- 8XY3 (R95). -/
def execXorReg (x y : Reg) (s : State) : Result := writeResultThenFlag x (s.reg x ^^^ s.reg y) logicFlag s

/-- 8XY4 (R96). -/
def execAddReg (x y : Reg) (s : State) : Result :=
  writeResultThenFlag x (s.reg x + s.reg y) (carryFlag (s.reg x) (s.reg y)) s

/-- 8XY5 (R97): VX - VY. -/
def execSubReg (x y : Reg) (s : State) : Result :=
  writeResultThenFlag x (s.reg x - s.reg y) (noBorrowFlag (s.reg x) (s.reg y)) s

/-- 8XY6 (R98): VY shifted right. -/
def execShrReg (x y : Reg) (s : State) : Result :=
  writeFlagThenResult x (s.reg y >>> 1) (shiftedOutRight (s.reg y)) s

/-- 8XY7 (R99): VY - VX. -/
def execSubnReg (x y : Reg) (s : State) : Result :=
  writeResultThenFlag x (s.reg y - s.reg x) (noBorrowFlag (s.reg y) (s.reg x)) s

/-- 8XYE (R100): VY shifted left. -/
def execShlReg (x y : Reg) (s : State) : Result :=
  writeFlagThenResult x (s.reg y <<< 1) (shiftedOutLeft (s.reg y)) s

/-- CXNN (R101): the random byte of this STEP, masked. -/
def execRnd (x : Reg) (nn : Byte) (s : State) : Result := writeResult x (s.rnd &&& nn) s

end Sys2Proof.Machine
end

