-- ==== Sys2Proof/Machine/ControlFlow.lean ====
section
/-! DEFINITION. The meanings of the control-transfer family (spec 40_control_flow.md R80 to R87). `s.pc` is the
instruction's own address a; `s.advance.pc` is a + 2 (30_encoding.md R71). -/

namespace Sys2Proof.Machine

/-- 00EE (R80). -/
def execRet (s : State) : Result :=
  match s.pop with
  | none => raise .stackUnderflow .ret s
  | some (t, s') => .next (s'.setPc t)

/-- 1NNN (R81). -/
def execJp (addr : Addr) (s : State) : Result := .next (s.setPc (zextAddr addr))

/-- 2NNN (R82): pushes a + 2. -/
def execCall (addr : Addr) (s : State) : Result :=
  match s.advance.push s.advance.pc with
  | none => raise .stackOverflow (.call addr) s
  | some s' => .next (s'.setPc (zextAddr addr))

/-- 3XNN (R83). -/
def execSeImm (x : Reg) (nn : Byte) (s : State) : Result := .next (s.advance.skipIf (decide (s.reg x = nn)))

/-- 4XNN (R84). -/
def execSneImm (x : Reg) (nn : Byte) (s : State) : Result := .next (s.advance.skipIf (decide (s.reg x ≠ nn)))

/-- 5XY0 (R85). -/
def execSeReg (x y : Reg) (s : State) : Result := .next (s.advance.skipIf (decide (s.reg x = s.reg y)))

/-- 9XY0 (R86). -/
def execSneReg (x y : Reg) (s : State) : Result := .next (s.advance.skipIf (decide (s.reg x ≠ s.reg y)))

/-- BNNN (R87). -/
def execJpV0 (addr : Addr) (s : State) : Result := .next (s.setPc (s.targetV0 addr))

end Sys2Proof.Machine
end

