-- ==== Sys2Proof/Machine/Display.lean ====
section
/-! DEFINITION. The framebuffer compositor and the meanings of 00E0 and DXYN (spec 43_display.md R120 to R127). The
loops are those of R121's pseudocode; a canvas is the framebuffer and `hit`. -/

namespace Sys2Proof.Machine

/-- Fb[x][y]. -/
def Framebuffer.pixel (f : Framebuffer) (x : Fin Config.fbWidth) (y : Fin Config.fbHeight) : Bool :=
  (f.get y).getLsbD x.val

/-- Fb[x][y] <- 1. -/
def Framebuffer.turnOn (f : Framebuffer) (x : Fin Config.fbWidth) (y : Fin Config.fbHeight) : Framebuffer :=
  f.set y (f.get y ||| (1#64 <<< x.val))

/-- Every pixel off. -/
def Framebuffer.blank : Framebuffer := Vector.replicate 32 0

/-- Fb[x][y] of the state: the pixel port (60_exceptions.md R167). -/
def State.pixel (s : State) (x : Fin Config.fbWidth) (y : Fin Config.fbHeight) : Bool := s.fb.pixel x y

/-- The column of sprite column c at origin x0: per-pixel wrap (43_display.md R122). -/
def spriteColumn (x0 : Byte) (c : Nat) : Fin Config.fbWidth := Fin.ofNat 64 (x0.toNat + c)

/-- The line of sprite row r at origin y0: per-pixel wrap (43_display.md R122). -/
def spriteLine (y0 : Byte) (r : Nat) : Fin Config.fbHeight := Fin.ofNat 32 (y0.toNat + r)

/-- The bit of a sprite byte at column c: bit 7 is column 0 (43_display.md R123). -/
def spriteBit (row : Byte) (c : Nat) : Bool := row.getLsbD (7 - c)

/-- One sprite bit: turn the pixel on if it is off, and remember that (43_display.md R124, R125). -/
def drawBit (x : Fin Config.fbWidth) (y : Fin Config.fbHeight) (on : Bool) (k : Framebuffer × Bool) : Framebuffer × Bool :=
  if on && !k.1.pixel x y then (k.1.turnOn x y, true) else k

/-- One sprite row, columns 0 to 7. -/
def drawRow (x0 : Byte) (y : Fin Config.fbHeight) (row : Byte) (k : Framebuffer × Bool) : Framebuffer × Bool :=
  (List.range 8).foldl (fun k c => drawBit (spriteColumn x0 c) y (spriteBit row c) k) k

/-- The sprite rows from row number r on. -/
def drawRows (x0 y0 : Byte) : Nat → List Byte → Framebuffer × Bool → Framebuffer × Bool
  | _, [], k => k
  | r, row :: rows, k => drawRows x0 y0 (r + 1) rows (drawRow x0 (spriteLine y0 r) row k)

/-- 00E0 (R120). -/
def execCls (s : State) : Result := .next (s.advance.setFb Framebuffer.blank)

/-- DXYN (R121): all rows are read before any pixel is written (R126). -/
def execDrw (x y : Reg) (n : Nat) (s : State) : Result :=
  match s.loadAtI n with
  | none => raise .addressOutOfRange (.drw x y n) s
  | some rows =>
    let k := drawRows (s.reg x) (s.reg y) 0 rows (s.fb, false)
    .next ((s.advance.setFb k.1).setFlag (collisionFlag k.2))

end Sys2Proof.Machine
end

