-- ==== Sys2Proof/Machine/IndexMemory.lean ====
section
/-! DEFINITION. The meanings of the address-register and memory-transfer family (spec 42_index_memory.md R110 to R115).
-/

namespace Sys2Proof.Machine

/-- ANNN (R110). -/
def execLdI (addr : Addr) (s : State) : Result := .next (s.advance.setI (zextAddr addr))

/-- FX1E (R111): no flag; a sum that does not fit 16 bits raises. -/
def execAddIVx (x : Reg) (s : State) : Result :=
  if s.sumIVx x > 0xFFFF then raise .iOverflow (.addIVx x) s
  else .next (s.advance.setI (BitVec.ofNat 16 (s.sumIVx x)))

/-- FX29 (R112). -/
def execLdFVx (x : Reg) (s : State) : Result := .next (s.advance.setI (glyphAddr (s.reg x)))

/-- FX33 (R113). -/
def execLdBVx (x : Reg) (s : State) : Result :=
  match s.advance.storeAtI (bcdDigits (s.reg x)) with
  | none => raise .addressOutOfRange (.ldBVx x) s
  | some s' => .next s'

/-- FX55 (R114). -/
def execStoreRegs (x : Reg) (s : State) : Result :=
  match s.advance.storeAtI (s.regsUpTo x) with
  | none => raise .addressOutOfRange (.storeRegs x) s
  | some s' => .next (s'.bumpI x)

/-- FX65 (R115): all bytes are read before a register is written. -/
def execLoadRegs (x : Reg) (s : State) : Result :=
  match s.loadAtI (x.val + 1) with
  | none => raise .addressOutOfRange (.loadRegs x) s
  | some bytes => .next ((s.advance.setRegsFrom 0 bytes).bumpI x)

end Sys2Proof.Machine
end

