-- ==== Sys2Proof/Machine/KeypadTimer.lean ====
section
/-! DEFINITION. The meanings of the keypad, key-wait and delay-timer family (spec 44_keypad_timer.md R130 to R135). -/

namespace Sys2Proof.Machine

/-- EX9E (R130). -/
def execSkp (x : Reg) (s : State) : Result :=
  match s.keyOf (s.reg x) with
  | none => raise .keyIndexOutOfRange (.skp x) s
  | some pressed => .next (s.advance.skipIf pressed)

/-- EXA1 (R131). -/
def execSknp (x : Reg) (s : State) : Result :=
  match s.keyOf (s.reg x) with
  | none => raise .keyIndexOutOfRange (.sknp x) s
  | some pressed => .next (s.advance.skipIf (!pressed))

/-- FX07 (R132). -/
def execLdVxDt (x : Reg) (s : State) : Result := .next (s.advance.setReg x s.dt)

/-- FX0A (R135): the wait starts; KEY_UP writes the register later. -/
def execLdVxK (x : Reg) (s : State) : Result :=
  .next ((s.advance.setWake (zextNibble x)).setExecState .waitingForKey)

/-- FX15 (R133). -/
def execLdDtVx (x : Reg) (s : State) : Result := .next (s.advance.setDt (s.reg x))

/-- FX18 (R134): no effect but the advance; VX is not read. -/
def execLdStVx (_x : Reg) (s : State) : Result := .next s.advance

end Sys2Proof.Machine
end

