-- ==== Sys2Proof/Machine/Cycle.lean ====
section
/-! DEFINITION. The instruction cycle one STEP performs (spec 30_encoding.md R70 to R72, 60_exceptions.md R162). -/

namespace Sys2Proof.Machine

/-- Fetch, decode, execute (30_encoding.md R72); the checks come in the order of 60_exceptions.md R153. -/
def instructionCycle (s : State) : Result :=
  match s.fetch with
  | none => .next (s.enterFaulted .addressOutOfRange none)
  | some w =>
    match decodeWord w with
    | .error _ => .next (s.enterFaulted .unknownInstruction (some w))
    | .ok i => exec i s

/-- STEP(rnd): one instruction in Running, nothing in WaitingForKey and Faulted (60_exceptions.md R162, R163). -/
def stepCommand (r : Byte) (s : State) : Result :=
  match s.execState with
  | .running => instructionCycle (s.latchRnd r)
  | .waitingForKey => .next s
  | .faulted => .next s

end Sys2Proof.Machine
end

