-- ==== Sys2Proof/Machine/Commands.lean ====
section
/-! DEFINITION. The host's commands and read ports (spec 60_exceptions.md R160 to R168, 44_keypad_timer.md R136 to R138).
-/

namespace Sys2Proof.Machine

/-- RESET (60_exceptions.md R161, 70_reset_and_hazards.md R180): the state after reset. What is the host's stays: the
commands it has still to issue, its random source, and the response of its last LOAD (log 1, 2, 4). -/
def resetCommand (s : State) : State :=
  { State.reset with inputs := s.inputs, rnd := s.rnd, draws := s.draws, loadResponse := s.loadResponse }

/-- LOAD(rom): ignored in Faulted; an oversized program is rejected and nothing is written (60_exceptions.md R164). -/
def loadCommand (rom : List Byte) (s : State) : State :=
  match s.execState with
  | .faulted => s
  | .running | .waitingForKey =>
    if rom.length ≤ Config.romMax then (s.setMem (s.mem.putBytes Config.programBase rom)).setLoadResponse .loadOk
    else s.setLoadResponse .loadRejected

/-- TICK: DT counts down to a floor at zero (44_keypad_timer.md R138, 60_exceptions.md R165). -/
def tickCommand (s : State) : State :=
  match s.execState with
  | .faulted => s
  | .running | .waitingForKey => if s.dt.toNat > 0 then s.setDt (s.dt - 1) else s

/-- KEY_DOWN(k) (44_keypad_timer.md R136, 60_exceptions.md R166). -/
def keyDownCommand (k : KeyIndex) (s : State) : State :=
  match s.execState with
  | .faulted => s
  | .running | .waitingForKey => s.setKey k true

/-- KEY_UP(k): clears the key, and ends a wait by writing k to V[WAKE] (44_keypad_timer.md R137). -/
def keyUpCommand (k : KeyIndex) (s : State) : Result :=
  match s.execState with
  | .faulted => .next s
  | .running => .next (s.setKey k false)
  | .waitingForKey =>
    if h : s.wake.toNat < 16 then
      .next (((s.setKey k false).setReg ⟨s.wake.toNat, h⟩ (zextNibble k)).setExecState .running)
    else .fault .wakeNamesNoRegister

/-- One command of the host (60_exceptions.md R168). -/
def runCommand (c : Command) (s : State) : Result :=
  match c with
  | .reset => .next (resetCommand s)
  | .load rom => .next (loadCommand rom s)
  | .step r => stepCommand r s
  | .tick => .next (tickCommand s)
  | .keyDown k => .next (keyDownCommand k s)
  | .keyUp k => keyUpCommand k s

/-- The next command: the oldest one queued, and with none queued STEP with a free random byte (60_exceptions.md R160,
R163; log 1, 2). -/
def nextCommand (s : State) : Result :=
  match s.inputs with
  | [] => stepCommand (Config.rndByte s.draws) s
  | c :: rest => runCommand c (s.setInputs rest)

/-- What the status port returns (60_exceptions.md R167). -/
structure Status where
  exec : ExecState
  faultCode : BitVec 3
  faultPc : Word
  faultOpcode : Word
  faultOpcodeValid : Bool
  loadResponse : Option LoadResponse
  deriving DecidableEq, Repr

/-- The status port (60_exceptions.md R167); the pixel port is `State.pixel`. -/
def statusPort (s : State) : Status where
  exec := s.execState
  faultCode := s.faultRecord.kind.code
  faultPc := s.faultRecord.pc
  faultOpcode := s.faultRecord.opcode
  faultOpcodeValid := s.faultRecord.opcodeValid
  loadResponse := s.loadResponse

/-- Where the next STEP fetches: pc, or the program base when no word lies at pc (log 7). -/
def fetchPlace (s : State) : Word := if s.pc.toNat + 1 < Config.memSize then s.pc else Config.pcReset

/-- Put a word, big-endian, where the next STEP fetches, and make STEP the next command and Running the execution
state (log 7). -/
def placeWord (s : State) (w : Word) : State :=
  (((s.setPc (fetchPlace s)).setMem
    (s.mem.putBytes (fetchPlace s).toNat [hiByte w, loByte w])).setExecState .running).setInputs []

end Sys2Proof.Machine
end

