-- ==== Sys2Proof/Machine/Step.lean ====
section
/-! DEFINITION. One step of the machine, the next command of the host (spec 60_exceptions.md R160), and the placing of a
word where the next step fetches. -/

namespace Sys2Proof.Machine

/-- One step: one host command, processed whole (60_exceptions.md R160). -/
def step (s : State) : Host.Outcome State Fault Refusal := nextCommand s

/-- The state with the word of a table row where the next step fetches (log 7). -/
def State.withFetchWord (s : State) (nbits w : Nat) : State := placeWord s (BitVec.ofNat 16 (w % 2 ^ nbits))

end Sys2Proof.Machine
end

