-- ==== Sys2Proof/Safety.lean ====
section
/-! DEFINITION. The terms claims are stated in: the parts of the state and what a frame leaves unchanged, the parts each
instruction may write, what raising a fatal error does, and the invariant of every run from reset. -/

namespace Sys2Proof.Machine

/-- The parts of the state: a byte of memory, a register, a key, a pixel, and each single field. -/
inductive Part where
  | mem (a : Nat)
  | reg (x : Reg)
  | i
  | pc
  | stack
  | dt
  | key (k : KeyIndex)
  | pixel (x : Fin Config.fbWidth) (y : Fin Config.fbHeight)
  | execState
  | wake
  | faultRecord
  | loadResponse
  | inputs
  | rnd
  | draws
  deriving DecidableEq, Repr

/-- The part holds the same in both states; memory is compared by reading one byte. -/
def Part.same (p : Part) (s t : State) : Prop :=
  match p with
  | .mem a => t.mem.read a = s.mem.read a
  | .reg x => t.reg x = s.reg x
  | .i => t.i = s.i
  | .pc => t.pc = s.pc
  | .stack => t.stack = s.stack
  | .dt => t.dt = s.dt
  | .key k => t.key k = s.key k
  | .pixel x y => t.pixel x y = s.pixel x y
  | .execState => t.execState = s.execState
  | .wake => t.wake = s.wake
  | .faultRecord => t.faultRecord = s.faultRecord
  | .loadResponse => t.loadResponse = s.loadResponse
  | .inputs => t.inputs = s.inputs
  | .rnd => t.rnd = s.rnd
  | .draws => t.draws = s.draws

/-- Every part outside `changed` is as before. -/
def Frame (s t : State) (changed : Part → Prop) : Prop := ∀ p, ¬ changed p → p.same s t

/-- The parts an instruction may write when it does not raise: 10_state.md R23 (registers), R24 (I), R25 (pc), R26
(stack), R30 (DT), R32 (pixels), R33 and R34 (EXEC, WAKE), 20_memory.md R48 (memory, at the addresses from I on). -/
def mayWrite (i : Instr) (s : State) (p : Part) : Prop :=
  p = .pc ∨
  match i with
  | .cls => ∃ x y, p = .pixel x y
  | .ret => p = .stack
  | .jp _ => False
  | .call _ => p = .stack
  | .seImm _ _ => False
  | .sneImm _ _ => False
  | .seReg _ _ => False
  | .ldImm x _ => p = .reg x
  | .addImm x _ => p = .reg x
  | .ldReg x _ => p = .reg x
  | .orReg x _ => p = .reg x ∨ p = .reg vf
  | .andReg x _ => p = .reg x ∨ p = .reg vf
  | .xorReg x _ => p = .reg x ∨ p = .reg vf
  | .addReg x _ => p = .reg x ∨ p = .reg vf
  | .subReg x _ => p = .reg x ∨ p = .reg vf
  | .shrReg x _ => p = .reg x ∨ p = .reg vf
  | .subnReg x _ => p = .reg x ∨ p = .reg vf
  | .shlReg x _ => p = .reg x ∨ p = .reg vf
  | .sneReg _ _ => False
  | .ldI _ => p = .i
  | .jpV0 _ => False
  | .rnd x _ => p = .reg x
  | .drw _ _ _ => p = .reg vf ∨ ∃ x y, p = .pixel x y
  | .skp _ => False
  | .sknp _ => False
  | .ldVxDt x => p = .reg x
  | .ldVxK _ => p = .wake ∨ p = .execState
  | .ldDtVx _ => p = .dt
  | .ldStVx _ => False
  | .addIVx _ => p = .i
  | .ldFVx _ => p = .i
  | .ldBVx _ => ∃ k, k < 3 ∧ p = .mem (s.dataAddr k)
  | .storeRegs x => p = .i ∨ ∃ k, k ≤ x.val ∧ p = .mem (s.dataAddr k)
  | .loadRegs x => p = .i ∨ ∃ r, r ≤ x ∧ p = .reg r

/-- `t` is `s` after a fatal error of kind `k` at the instruction at `s.pc`: EXEC and FAULT, and nothing else
(60_exceptions.md R152). `opcode` is the word, none when the fetch itself failed. -/
def Raised (s t : State) (k : FatalKind) (opcode : Option Word) : Prop :=
  t.execState = .faulted ∧
  t.faultRecord = { kind := k, pc := s.pc, opcode := opcode.getD 0, opcodeValid := opcode.isSome } ∧
  Frame s t fun p => p = .execState ∨ p = .faultRecord

/-- The state a STEP bringing the byte `r` hands to the instruction, the command that brought it taken off the queue. -/
def State.begun (s : State) (r : Byte) (rest : List Command) : State := (s.setInputs rest).latchRnd r

/-- The next command is a STEP that brings the random byte `r` and leaves the commands `rest`: one queued, or the one
the host issues when none is queued, with a byte nothing is known of (log 1, 2). -/
def State.StepNext (s : State) (r : Byte) (rest : List Command) : Prop :=
  s.inputs = .step r :: rest ∨ (s.inputs = [] ∧ rest = [] ∧ r = Config.rndByte s.draws)

/-- The one check of its own an instruction makes, and the fatal error it raises (60_exceptions.md R150, R153). -/
def ownCheck (i : Instr) (s : State) : Option FatalKind :=
  match i with
  | .ret => if s.stack = [] then some .stackUnderflow else none
  | .call _ => if 16 ≤ s.stack.length then some .stackOverflow else none
  | .skp x => if 16 ≤ (s.reg x).toNat then some .keyIndexOutOfRange else none
  | .sknp x => if 16 ≤ (s.reg x).toNat then some .keyIndexOutOfRange else none
  | .addIVx x => if 0xFFFF < s.i.toNat + (s.reg x).toNat then some .iOverflow else none
  | .ldBVx _ => if 0x1000 ≤ s.i.toNat + 2 then some .addressOutOfRange else none
  | .storeRegs x => if 0x1000 ≤ s.i.toNat + x.val then some .addressOutOfRange else none
  | .loadRegs x => if 0x1000 ≤ s.i.toNat + x.val then some .addressOutOfRange else none
  | .drw _ _ n => if 1 ≤ n ∧ 0x1000 ≤ s.i.toNat + (n - 1) then some .addressOutOfRange else none
  | .cls | .jp _ | .seImm _ _ | .sneImm _ _ | .seReg _ _ | .ldImm _ _ | .addImm _ _ | .ldReg _ _ | .orReg _ _
  | .andReg _ _ | .xorReg _ _ | .addReg _ _ | .subReg _ _ | .shrReg _ _ | .subnReg _ _ | .shlReg _ _ | .sneReg _ _
  | .ldI _ | .jpV0 _ | .rnd _ _ | .ldVxDt _ | .ldVxK _ | .ldDtVx _ | .ldStVx _ | .ldFVx _ => none

/-- The fatal error a STEP in Running meets, if any, in the order of 60_exceptions.md R153: the fetch, the decode, the
instruction's own check. -/
def fatalOf (s : State) : Option FatalKind :=
  match s.fetch with
  | none => some .addressOutOfRange
  | some w =>
    match decodeWord w with
    | .error _ => some .unknownInstruction
    | .ok i => ownCheck i s

/-- The next command is a STEP, the core is Running, and the word at pc is the instruction `i`. -/
def State.Executes (s : State) (i : Instr) : Prop :=
  (∃ r rest, s.StepNext r rest) ∧ s.execState = .running ∧ ∃ w, s.fetch = some w ∧ decodeWord w = .ok i

/-- What every state of a run from reset has: memory in canonical form, at most 16 return addresses each at most 0x1000
(10_state.md R26; 40_control_flow.md R80), pc at most 0x10FE (10_state.md R25), WAKE a register number (R34), and a
FAULT record that is clear but in Faulted, where it names a kind and the pc and has a word if and only if the fetch
succeeded (10_state.md R35, 60_exceptions.md R150, R152). -/
structure State.Inv (s : State) : Prop where
  memWf : s.mem.wf = true
  stackDepth : s.stack.length ≤ 16
  stackEntries : ∀ a ∈ s.stack, a.toNat ≤ 0x1000
  pcBound : s.pc.toNat ≤ 0x10FE
  wakeBound : s.wake.toNat < 16
  faultClear : s.execState ≠ .faulted → s.faultRecord = FaultRecord.clear
  faultNamed : s.execState = .faulted → s.faultRecord.kind ≠ .none ∧ s.faultRecord.pc = s.pc
  faultFetched : s.execState = .faulted → (s.faultRecord.opcodeValid = true ↔ s.pc.toNat + 1 < 0x1000)
  faultUnfetched : s.execState = .faulted → s.faultRecord.opcodeValid = false →
    s.faultRecord.opcode = 0 ∧ s.faultRecord.kind = .addressOutOfRange

end Sys2Proof.Machine
end

