-- ==== Sys2Proof/Certificates/Slice0/Obligations.lean ====
section
/-! DEFINITION. The statements for the provers, from the numbered rules of spec/, each with the rules or sections it
formalises. "Derived" in a docstring names the spec's own decision (92_eei_decisions.md) or the log entry a clause rests
on. -/

open Sys2Proof Sys2Proof.Machine

/-! ### Encoding -/

/-- Decoding what the encoder wrote gives the instruction back, and leaves the bytes after it (30_encoding.md R60 to
R68). -/
def Obligations.DecodeOfEncodeIsTheInstruction : Prop :=
  ∀ (i : Instr) (rest : List Byte), i.wf = true → decode (encodeBytes i ++ rest) = .ok (i, rest)

/-- Every word has one meaning: what a word decodes to is well-formed and encodes to that word. -/
def Obligations.DecodedWordEncodesBack : Prop :=
  ∀ (w : Word) (i : Instr), decodeWord w = .ok i → i.wf = true ∧ encode i = w

/-- A word is unknown, and named so, exactly when no row of the opcode table matches it (30_encoding.md R69). -/
def Obligations.UnknownWordsMatchNoTableRow : Prop :=
  (∀ (w : Word) (e : DecodeError), decodeWord w = .error e → e = .unknownInstruction w) ∧
  ∀ w : Word, decodeWord w = .error (.unknownInstruction w) ↔ ∀ row ∈ opcodeTable, w &&& row.1 ≠ row.2

/-- A few words, written out from the table's encodings, decode to what they stand for; one of each family, and unknown
words of groups 0, 5, 8, E and F (95_test_vectors.md L2). -/
def Obligations.SampleWordsDecodeAsTheTableSays : Prop :=
  decodeWord 0x00E0 = .ok .cls ∧ decodeWord 0x2300 = .ok (.call 0x300) ∧ decodeWord 0x8AB4 = .ok (.addReg 0xA 0xB) ∧
  decodeWord 0xD125 = .ok (.drw 1 2 5) ∧ decodeWord 0xE59E = .ok (.skp 5) ∧ decodeWord 0xF365 = .ok (.loadRegs 3) ∧
  decodeWord 0x01E0 = .error (.unknownInstruction 0x01E0) ∧ decodeWord 0x5121 = .error (.unknownInstruction 0x5121) ∧
  decodeWord 0x8008 = .error (.unknownInstruction 0x8008) ∧ decodeWord 0xE09F = .error (.unknownInstruction 0xE09F) ∧
  decodeWord 0xF01F = .error (.unknownInstruction 0xF01F)

/-! ### The step -/

/-- A fetch composes the bytes at pc and pc + 1 big-endian, whether pc is even or odd (20_memory.md R46, R47). -/
def Obligations.FetchIsBigEndian : Prop :=
  ∀ (s : State) (hi lo : Byte), s.mem.read s.pc.toNat = some hi → s.mem.read (s.pc.toNat + 1) = some lo →
    ∃ w, s.fetch = some w ∧ w.toNat = 256 * hi.toNat + lo.toNat

/-- A STEP in Running whose bytes at pc decode to `i` is `exec i` on the state with the random byte latched and the
command taken off the queue (30_encoding.md R72). `exec` starts with pc at the instruction and makes the advance itself
(log 5). The command queue and the latched byte are the model's (log 1, 2). -/
def Obligations.StepRunsTheDecodedInstruction : Prop :=
  ∀ (s : State) (r : Byte) (rest : List Command) (hi lo : Byte) (i : Instr),
    s.StepNext r rest → s.execState = .running → s.mem.read s.pc.toNat = some hi →
    s.mem.read (s.pc.toNat + 1) = some lo → decodeWord (hi ++ lo) = .ok i →
    step s = exec i { s with inputs := rest, rnd := r, draws := s.draws + 1 }

/-- A STEP in WaitingForKey or Faulted only takes the command off the queue (60_exceptions.md R162; derived: D14). The
command queue is the model's (log 1). -/
def Obligations.StepOutsideRunningChangesNothing : Prop :=
  ∀ (s : State) (r : Byte) (rest : List Command), s.StepNext r rest → s.execState ≠ .running →
    ∃ t, step s = .next t ∧ t.inputs = rest ∧ Frame s t fun p => p = .inputs

/-- A STEP in Running either meets a fatal error, in the order fetch, decode, own check, and then changes EXEC and FAULT
alone, FAULT holding the kind, the pc and the fetched word; or it runs the decoded instruction, which then writes
nothing but what its rule lets it write (60_exceptions.md R150, R152, R153; derived: D11, D12). The command queue and
the latched byte are the model's (log 1, 2). -/
def Obligations.FatalErrorsArePrecise : Prop :=
  ∀ (s : State) (r : Byte) (rest : List Command), s.StepNext r rest → s.execState = .running →
    (∀ k, fatalOf s = some k → ∃ t, step s = .next t ∧ Raised (s.begun r rest) t k s.fetch) ∧
    (fatalOf s = none → ∃ w i t, s.fetch = some w ∧ decodeWord w = .ok i ∧ step s = .next t ∧
      t.execState ≠ .faulted ∧ Frame (s.begun r rest) t (mayWrite i (s.begun r rest)))

/-- What each instruction's own check raises, with the instruction's word in FAULT and nothing written
(60_exceptions.md R150, R152; derived: D7, D11, D15, D16). -/
def Obligations.OwnCheckRaisesItsKind : Prop :=
  ∀ (i : Instr) (s : State) (k : FatalKind), ownCheck i s = some k →
    ∃ t, exec i s = .next t ∧ Raised s t k (some (encode i))

/-- An instruction whose own check passes completes, raises nothing, and leaves every part of the state it is not named
to write: the frame of all 34 instructions (10_state.md R22 to R34; 20_memory.md R48). -/
def Obligations.EveryInstructionCompletesWithinItsFrame : Prop :=
  ∀ (i : Instr) (s : State), ownCheck i s = none →
    ∃ t, exec i s = .next t ∧ t.faultRecord = s.faultRecord ∧
      (t.execState = s.execState ∨ ((∃ x, i = .ldVxK x) ∧ t.execState = .waitingForKey)) ∧ Frame s t (mayWrite i s)

/-! ### Invariants of every run -/

/-- The invariant holds after reset. -/
def Obligations.ResetMeetsTheInvariant : Prop := State.Inv State.reset

/-- Every step keeps the invariant, whatever the host commands: memory stays canonical, the stack within 16 entries, pc
at most 0x10FE (10_state.md R25), WAKE a register number (R34), FAULT clear outside Faulted (R35). The canonical form is
the model's (log 10); the bounds are the spec's own inferences and decisions (D3, D7, D11). -/
def Obligations.EveryStepKeepsTheInvariant : Prop :=
  ∀ s t : State, s.Inv → step s = .next t → t.Inv

/-- The model never stops on a state that meets the invariant: every command gives a next state (60_exceptions.md R160,
R168). The model's one stop is log 6. -/
def Obligations.InvariantStatesAlwaysStep : Prop :=
  ∀ s : State, s.Inv → ∃ t, step s = .next t

/-- Memory in canonical form is determined by what its addresses read as (log 10). The form is the model's choice. -/
def Obligations.CanonicalMemoriesWithEqualReadsAreEqual : Prop :=
  ∀ m m' : Memory, m.wf = true → m'.wf = true → (∀ a, m.read a = m'.read a) → m = m'

/-! ### Whole-machine rules -/

/-- While Faulted, every command but RESET leaves every part of the state as it was; RESET gives a Running core with a
clear FAULT (60_exceptions.md R154, R168; derived: D13). The command queue is the model's (log 1). -/
def Obligations.OnlyResetLeavesFaulted : Prop :=
  ∀ (s : State) (c : Command) (rest : List Command), s.execState = .faulted → s.inputs = c :: rest →
    (c ≠ .reset → ∃ t, step s = .next t ∧ t.inputs = rest ∧ Frame s t fun p => p = .inputs) ∧
    (c = .reset → ∃ t, step s = .next t ∧ t.inputs = rest ∧ t.execState = .running ∧ t.faultRecord = FaultRecord.clear)

/-- A key-wait starts only by FX0A, with WAKE naming its register and pc after it (44_keypad_timer.md R135, R139). The
command queue is the model's (log 1). -/
def Obligations.KeyWaitStartsOnlyByFX0A : Prop :=
  ∀ s t : State, step s = .next t → s.execState ≠ .waitingForKey → t.execState = .waitingForKey →
    ∃ x, s.Executes (.ldVxK x) ∧ t.wake.toNat = x.val ∧ t.pc = s.pc + 2

/-- A key-wait ends only by KEY_UP or RESET (44_keypad_timer.md R139; 60_exceptions.md R173). The command queue is the
model's (log 1). -/
def Obligations.KeyWaitEndsOnlyByKeyUpOrReset : Prop :=
  ∀ s t : State, step s = .next t → s.execState = .waitingForKey → t.execState ≠ .waitingForKey →
    t.execState = .running ∧ ∃ rest, s.inputs = .reset :: rest ∨ ∃ k, s.inputs = .keyUp k :: rest

/-- A byte of memory changes only by LOAD, by RESET, or by FX33 or FX55 storing to its address (20_memory.md R48, R57).
The command queue is the model's (log 1). -/
def Obligations.MemoryChangesOnlyByItsWriters : Prop :=
  ∀ (s t : State) (a : Nat), step s = .next t → t.mem.read a ≠ s.mem.read a →
    (∃ rest, s.inputs = .reset :: rest) ∨ (∃ rom rest, s.inputs = .load rom :: rest) ∨
    (∃ x k, k < 3 ∧ s.Executes (.ldBVx x) ∧ a = s.i.toNat + k) ∨
    (∃ x k, k ≤ x.val ∧ s.Executes (.storeRegs x) ∧ a = s.i.toNat + k)

/-- A pixel that is on goes off only by 00E0 or RESET (10_state.md R32; 43_display.md R124). The command queue is the
model's (log 1). -/
def Obligations.PixelsGoOffOnlyByClearOrReset : Prop :=
  ∀ (s t : State) (x : Fin Config.fbWidth) (y : Fin Config.fbHeight), step s = .next t →
    s.pixel x y = true → t.pixel x y = false → (∃ rest, s.inputs = .reset :: rest) ∨ s.Executes .cls

/-- DT changes only by TICK, FX15 or RESET, never with instruction execution (10_state.md R29, R30). The command queue
is the model's (log 1). -/
def Obligations.DelayTimerChangesOnlyByItsWriters : Prop :=
  ∀ s t : State, step s = .next t → t.dt ≠ s.dt →
    (∃ rest, s.inputs = .reset :: rest ∨ s.inputs = .tick :: rest) ∨ ∃ x, s.Executes (.ldDtVx x)

/-- No step touches a key but KEY_DOWN and KEY_UP of that key, and RESET (10_state.md R31 "No instruction writes it").
The command queue is the model's (log 1). -/
def Obligations.KeysChangeOnlyByHostEvents : Prop :=
  ∀ (s t : State) (k : KeyIndex), step s = .next t → t.key k ≠ s.key k →
    ∃ rest, s.inputs = .reset :: rest ∨ s.inputs = .keyDown k :: rest ∨ s.inputs = .keyUp k :: rest

/-- The random byte reaches the state through CXNN alone: any other instruction does the same whatever it is
(60_exceptions.md R163; derived: D18). The latched byte is the model's field (log 2). -/
def Obligations.OnlyCXNNReadsTheRandomByte : Prop :=
  ∀ (i : Instr) (s t : State) (r : Byte), (∀ x nn, i ≠ .rnd x nn) → exec i s = .next t →
    exec i { s with rnd := r } = .next { t with rnd := r }

/-- A word FX55 stores where the next instruction lies is the word fetched next (20_memory.md R55). -/
def Obligations.StoredWordIsFetchedNext : Prop :=
  ∀ (s t : State) (x k k' : Reg), exec (.storeRegs x) s = .next t → t.execState ≠ .faulted → k'.val = k.val + 1 →
    k' ≤ x → t.pc.toNat = s.i.toNat + k.val → t.fetch = some (s.reg k ++ s.reg k')

/-- The host's placing of a word: the next step runs exactly its instruction, and nothing else of the state is changed
but what that takes (log 7; not a rule of the spec). -/
def Obligations.PlacedWordRunsNext : Prop :=
  ∀ (s : State) (w : Nat) (i : Instr), decodeTableWord 16 w = some i →
    (∃ r rest, step (s.withFetchWord 16 w) = exec i ((s.withFetchWord 16 w).begun r rest)) ∧
    Frame s (s.withFetchWord 16 w) fun p => p = .inputs ∨ p = .execState ∨ (p = .pc ∧ 0xFFF ≤ s.pc.toNat) ∨
      p = .mem (s.withFetchWord 16 w).pc.toNat ∨ p = .mem ((s.withFetchWord 16 w).pc.toNat + 1)

/-! ### Commands -/

/-- KEY_DOWN(k) in Running and in WaitingForKey sets Key[k] and nothing else; it never ends a wait (44_keypad_timer.md
R136; derived: D22). The command queue is the model's (log 1). -/
def Obligations.KeyDownSetsItsKey : Prop :=
  ∀ (s : State) (k : KeyIndex) (rest : List Command), s.execState ≠ .faulted → s.inputs = .keyDown k :: rest →
    ∃ t, step s = .next t ∧ t.key k = true ∧ t.inputs = rest ∧ Frame s t fun p => p = .inputs ∨ p = .key k

/-- KEY_UP(k) clears Key[k]; in WaitingForKey it also writes k to V[WAKE] and returns to Running (44_keypad_timer.md
R137; derived: D22). WAKE names a register in every state of a run (10_state.md R34). With WAKE above 15, which no run
reaches, the model stops by name (log 6). The command queue is the model's (log 1). -/
def Obligations.KeyUpClearsItsKeyAndEndsAWait : Prop :=
  ∀ (s : State) (k : KeyIndex) (rest : List Command), s.inputs = .keyUp k :: rest →
    (s.execState = .running → ∃ t, step s = .next t ∧ t.key k = false ∧ t.inputs = rest ∧
      Frame s t fun p => p = .inputs ∨ p = .key k) ∧
    (s.execState = .waitingForKey → ∀ x : Reg, s.wake.toNat = x.val →
      ∃ t, step s = .next t ∧ t.key k = false ∧ (t.reg x).toNat = k.val ∧ t.execState = .running ∧ t.inputs = rest ∧
        Frame s t fun p => p = .inputs ∨ p = .key k ∨ p = .reg x ∨ p = .execState) ∧
    (s.execState = .waitingForKey → 16 ≤ s.wake.toNat → step s = .fault .wakeNamesNoRegister)

/-- TICK in Running and in WaitingForKey counts DT down by one, never below zero, and changes nothing else
(44_keypad_timer.md R138). The command queue is the model's (log 1). -/
def Obligations.TickCountsTheDelayTimerDown : Prop :=
  ∀ (s : State) (rest : List Command), s.execState ≠ .faulted → s.inputs = .tick :: rest →
    ∃ t, step s = .next t ∧ (s.dt.toNat > 0 → t.dt.toNat = s.dt.toNat - 1) ∧ (s.dt.toNat = 0 → t.dt = s.dt) ∧
      t.inputs = rest ∧ Frame s t fun p => p = .inputs ∨ p = .dt

/-- LOAD of at most 3584 bytes puts them at 0x200 and answers LOAD_OK; a longer one writes nothing and answers
LOAD_REJECTED (60_exceptions.md R164; derived: D23). The command queue and the response as a field are the model's (log
1, 4). -/
def Obligations.LoadPlacesTheProgramOrIsRejected : Prop :=
  ∀ (s : State) (rom : List Byte) (rest : List Command), s.execState ≠ .faulted → s.inputs = .load rom :: rest →
    ∃ t, step s = .next t ∧ t.inputs = rest ∧
      (rom.length ≤ 3584 → t.loadResponse = some .loadOk ∧
        (∀ n, n < rom.length → t.mem.read (0x200 + n) = rom[n]?) ∧
        Frame s t fun p => p = .inputs ∨ p = .loadResponse ∨ ∃ n, n < rom.length ∧ p = .mem (0x200 + n)) ∧
      (rom.length > 3584 → t.loadResponse = some .loadRejected ∧
        Frame s t fun p => p = .inputs ∨ p = .loadResponse)

/-- RESET in every state gives every piece of the spec's state its reset value (60_exceptions.md R161; 10_state.md R38;
derived: D4, D5, D31). By the model's choice it leaves the commands after it, the draw counter and the LOAD response
(log 1, 2, 4); of the model's latched byte nothing is said. -/
def Obligations.ResetCommandGivesTheResetState : Prop :=
  ∀ (s : State) (rest : List Command), s.inputs = .reset :: rest →
    ∃ t, step s = .next t ∧ t.inputs = rest ∧ t.draws = s.draws ∧ t.loadResponse = s.loadResponse ∧
      Frame State.reset t fun p => p = .inputs ∨ p = .draws ∨ p = .rnd ∨ p = .loadResponse

/-- After reset the font stands in 0x000 to 0x04F, byte for byte (20_memory.md R43). -/
def Obligations.FontStandsAtReset : Prop :=
  ((List.range 20).map State.reset.mem.read = List.map some
    [0xF0, 0x90, 0x90, 0x90, 0xF0, 0x20, 0x60, 0x20, 0x20, 0x70, 0xF0, 0x10, 0xF0, 0x80, 0xF0, 0xF0, 0x10, 0xF0, 0x10, 0xF0]) ∧
  ((List.range' 0x14 20).map State.reset.mem.read = List.map some
    [0x90, 0x90, 0xF0, 0x10, 0x10, 0xF0, 0x80, 0xF0, 0x10, 0xF0, 0xF0, 0x80, 0xF0, 0x90, 0xF0, 0xF0, 0x10, 0x20, 0x40, 0x40]) ∧
  ((List.range' 0x28 20).map State.reset.mem.read = List.map some
    [0xF0, 0x90, 0xF0, 0x90, 0xF0, 0xF0, 0x90, 0xF0, 0x10, 0xF0, 0xF0, 0x90, 0xF0, 0x90, 0x90, 0xE0, 0x90, 0xE0, 0x90, 0xE0]) ∧
  ((List.range' 0x3C 20).map State.reset.mem.read = List.map some
    [0xF0, 0x80, 0x80, 0x80, 0xF0, 0xE0, 0x90, 0x90, 0x90, 0xE0, 0xF0, 0x80, 0xF0, 0x80, 0xF0, 0xF0, 0x80, 0xF0, 0x80, 0x80])

/-- The reset values of 10_state.md R38 (derived: D4, D5, D11); the font is `FontStandsAtReset`. -/
def Obligations.ResetValuesAreTheSpecs : Prop :=
  (∀ x, State.reset.reg x = 0) ∧ State.reset.i = 0 ∧ State.reset.wake = 0 ∧ State.reset.execState = .running ∧
  (∀ a, 0x50 ≤ a → a < 0x1000 → State.reset.mem.read a = some 0) ∧ (∀ a, 0x1000 ≤ a → State.reset.mem.read a = none) ∧
  State.reset.pc = 0x200 ∧ State.reset.stack = [] ∧ State.reset.dt = 0 ∧ (∀ k, State.reset.key k = false) ∧
  (∀ x y, State.reset.pixel x y = false) ∧ State.reset.faultRecord = ⟨.none, 0, 0, false⟩

/-- A STEP before any LOAD meets the word 0x0000 at 0x200, which is unknown (70_reset_and_hazards.md R182; derived
there). The command queue is the model's (log 1). -/
def Obligations.StepBeforeLoadIsUnknownInstruction : Prop :=
  ∃ t, step State.reset = .next t ∧ t.execState = .faulted ∧ t.faultRecord = ⟨.unknownInstruction, 0x200, 0x0000, true⟩ ∧
    t.pc = 0x200

/-- The status port shows EXEC, FAULT with the numeric code of its kind, and the response of the last LOAD
(60_exceptions.md R150, R167; derived: D10). The response as a field is the model's (log 4). -/
def Obligations.StatusPortShowsExecAndFault : Prop :=
  (∀ s : State, (statusPort s).exec = s.execState ∧ (statusPort s).faultPc = s.faultRecord.pc ∧
    (statusPort s).faultOpcode = s.faultRecord.opcode ∧ (statusPort s).faultOpcodeValid = s.faultRecord.opcodeValid ∧
    (statusPort s).faultCode = s.faultRecord.kind.code ∧ (statusPort s).loadResponse = s.loadResponse) ∧
  [FatalKind.none, .unknownInstruction, .stackUnderflow, .addressOutOfRange, .stackOverflow, .keyIndexOutOfRange,
    .iOverflow].map (fun k => k.code.toNat) = [0, 1, 2, 3, 4, 5, 6]

/-! ### ALU -/

/-- 6XNN, 7XNN and 8XY0: the encodings, the register's new value, no flag, nothing else (41_alu.md R90, R91, R92). With
X = F, VF is just the destination. -/
def Obligations.LoadsAndAddImmediateWriteNoFlag : Prop :=
  (∀ (x y : Reg) (nn : Byte), decodeWord (wordXnn 0x6 x nn) = .ok (.ldImm x nn) ∧
    decodeWord (wordXnn 0x7 x nn) = .ok (.addImm x nn) ∧ decodeWord (wordXyn 0x8 x y 0x0) = .ok (.ldReg x y)) ∧
  (∀ (s : State) (x : Reg) (nn : Byte), ∃ t, exec (.ldImm x nn) s = .next t ∧ t.reg x = nn ∧ t.pc = s.pc + 2 ∧
    Frame s t fun p => p = .reg x ∨ p = .pc) ∧
  (∀ (s : State) (x : Reg) (nn : Byte), ∃ t, exec (.addImm x nn) s = .next t ∧
    (t.reg x).toNat = ((s.reg x).toNat + nn.toNat) % 256 ∧ t.pc = s.pc + 2 ∧ Frame s t fun p => p = .reg x ∨ p = .pc) ∧
  (∀ (s : State) (x y : Reg), ∃ t, exec (.ldReg x y) s = .next t ∧ t.reg x = s.reg y ∧ t.pc = s.pc + 2 ∧
    Frame s t fun p => p = .reg x ∨ p = .pc)

/-- 8XY1, 8XY2 and 8XY3: the encodings, the result in VX, then VF := 0, which stays when X = F (41_alu.md R93, R94, R95). -/
def Obligations.LogicWritesResultAndClearsFlag : Prop :=
  ∀ (s : State) (x y : Reg),
    (decodeWord (wordXyn 0x8 x y 0x1) = .ok (.orReg x y) ∧ decodeWord (wordXyn 0x8 x y 0x2) = .ok (.andReg x y) ∧
      decodeWord (wordXyn 0x8 x y 0x3) = .ok (.xorReg x y)) ∧
    (∃ t, exec (.orReg x y) s = .next t ∧ (x ≠ vf → t.reg x = s.reg x ||| s.reg y) ∧ t.reg vf = 0 ∧ t.pc = s.pc + 2 ∧
      Frame s t fun p => p = .reg x ∨ p = .reg vf ∨ p = .pc) ∧
    (∃ t, exec (.andReg x y) s = .next t ∧ (x ≠ vf → t.reg x = s.reg x &&& s.reg y) ∧ t.reg vf = 0 ∧ t.pc = s.pc + 2 ∧
      Frame s t fun p => p = .reg x ∨ p = .reg vf ∨ p = .pc) ∧
    (∃ t, exec (.xorReg x y) s = .next t ∧ (x ≠ vf → t.reg x = s.reg x ^^^ s.reg y) ∧ t.reg vf = 0 ∧ t.pc = s.pc + 2 ∧
      Frame s t fun p => p = .reg x ∨ p = .reg vf ∨ p = .pc)

/-- 8XY4: the encoding, the wrapped sum in VX, the carry in VF; with X = F the carry stays (41_alu.md R96). -/
def Obligations.AddSetsCarry : Prop :=
  ∀ (s : State) (x y : Reg), decodeWord (wordXyn 0x8 x y 0x4) = .ok (.addReg x y) ∧ ∃ t, exec (.addReg x y) s = .next t ∧
    (x ≠ vf → (t.reg x).toNat = ((s.reg x).toNat + (s.reg y).toNat) % 256) ∧
    (t.reg vf).toNat = (if (s.reg x).toNat + (s.reg y).toNat > 255 then 1 else 0) ∧ t.pc = s.pc + 2 ∧
    Frame s t fun p => p = .reg x ∨ p = .reg vf ∨ p = .pc

/-- 8XY5 and 8XY7: the encodings, the wrapped difference in VX, VF = 0 on a borrow and 1 otherwise; with X = F the flag stays
(41_alu.md R97, R99). -/
def Obligations.SubtractionsSetNoBorrow : Prop :=
  ∀ (s : State) (x y : Reg),
    (decodeWord (wordXyn 0x8 x y 0x5) = .ok (.subReg x y) ∧ decodeWord (wordXyn 0x8 x y 0x7) = .ok (.subnReg x y)) ∧
    (∃ t, exec (.subReg x y) s = .next t ∧
      (x ≠ vf → (t.reg x).toNat = (256 + (s.reg x).toNat - (s.reg y).toNat) % 256) ∧
      (t.reg vf).toNat = (if (s.reg y).toNat > (s.reg x).toNat then 0 else 1) ∧ t.pc = s.pc + 2 ∧
      Frame s t fun p => p = .reg x ∨ p = .reg vf ∨ p = .pc) ∧
    (∃ t, exec (.subnReg x y) s = .next t ∧
      (x ≠ vf → (t.reg x).toNat = (256 + (s.reg y).toNat - (s.reg x).toNat) % 256) ∧
      (t.reg vf).toNat = (if (s.reg x).toNat > (s.reg y).toNat then 0 else 1) ∧ t.pc = s.pc + 2 ∧
      Frame s t fun p => p = .reg x ∨ p = .reg vf ∨ p = .pc)

/-- 8XY6 and 8XYE: the encodings, VY shifted by one into VX, the bit shifted out in VF, written before VX: with X = F the shifted value
stays (41_alu.md R98, R100). -/
def Obligations.ShiftsTakeVYAndKeepTheBitShiftedOut : Prop :=
  ∀ (s : State) (x y : Reg),
    (decodeWord (wordXyn 0x8 x y 0x6) = .ok (.shrReg x y) ∧ decodeWord (wordXyn 0x8 x y 0xE) = .ok (.shlReg x y)) ∧
    (∃ t, exec (.shrReg x y) s = .next t ∧ (t.reg x).toNat = (s.reg y).toNat / 2 ∧
      (x ≠ vf → (t.reg vf).toNat = (s.reg y).toNat % 2) ∧ t.pc = s.pc + 2 ∧
      Frame s t fun p => p = .reg x ∨ p = .reg vf ∨ p = .pc) ∧
    (∃ t, exec (.shlReg x y) s = .next t ∧ (t.reg x).toNat = 2 * (s.reg y).toNat % 256 ∧
      (x ≠ vf → (t.reg vf).toNat = (s.reg y).toNat / 128) ∧ t.pc = s.pc + 2 ∧
      Frame s t fun p => p = .reg x ∨ p = .reg vf ∨ p = .pc)

/-- CXNN, as the next STEP runs it: VX is the random byte that came with that STEP, masked, whatever the byte (41_alu.md
R101; 60_exceptions.md R163; derived: D18; log 2). The command queue is the model's (log 1). -/
def Obligations.RandomByteIsMasked : Prop :=
  (∀ (s : State) (x : Reg) (nn : Byte), ∃ t, exec (.rnd x nn) s = .next t ∧ t.reg x = s.rnd &&& nn ∧ t.pc = s.pc + 2 ∧
    Frame s t fun p => p = .reg x ∨ p = .pc) ∧
  (∀ (s : State) (r : Byte) (rest : List Command) (x : Reg) (nn : Byte), s.StepNext r rest → s.Executes (.rnd x nn) →
    ∃ t, step s = .next t ∧ t.reg x = r &&& nn)

/-- What VF holds after an ALU instruction whose destination is VF, row by row of the table of 41_alu.md R103 (derived:
D6). -/
def Obligations.FlagRegisterAsDestination : Prop :=
  ∀ (s : State) (y : Reg) (nn : Byte),
    (∃ t, exec (.addImm vf nn) s = .next t ∧ t.reg vf = s.reg vf + nn) ∧
    (∃ t, exec (.orReg vf y) s = .next t ∧ t.reg vf = 0) ∧
    (∃ t, exec (.andReg vf y) s = .next t ∧ t.reg vf = 0) ∧
    (∃ t, exec (.xorReg vf y) s = .next t ∧ t.reg vf = 0) ∧
    (∃ t, exec (.addReg vf vf) s = .next t ∧ (t.reg vf).toNat = (s.reg vf).toNat / 128) ∧
    (∃ t, exec (.subReg vf vf) s = .next t ∧ t.reg vf = 1) ∧
    (∃ t, exec (.subnReg vf vf) s = .next t ∧ t.reg vf = 1) ∧
    (∃ t, exec (.shrReg vf y) s = .next t ∧ (t.reg vf).toNat = (s.reg y).toNat / 2) ∧
    (∃ t, exec (.shlReg vf y) s = .next t ∧ (t.reg vf).toNat = 2 * (s.reg y).toNat % 256)

/-! ### Control flow -/

/-- 1NNN: pc := NNN, nothing else; with NNN its own address it is executed again (40_control_flow.md R81). -/
def Obligations.JumpGoesToItsAddress : Prop :=
  ∀ (s : State) (addr : Addr), ∃ t, exec (.jp addr) s = .next t ∧ t.pc.toNat = addr.toNat ∧ Frame s t fun p => p = .pc

/-- The four skips: the encodings, pc + 4 when the condition holds and pc + 2 when it does not, nothing else (40_control_flow.md R83,
R84, R85, R86). -/
def Obligations.SkipsAdvanceByTwoOrFour : Prop :=
  ∀ (s : State) (x y : Reg) (nn : Byte),
    (decodeWord (wordXnn 0x3 x nn) = .ok (.seImm x nn) ∧ decodeWord (wordXnn 0x4 x nn) = .ok (.sneImm x nn) ∧
      decodeWord (wordXyn 0x5 x y 0x0) = .ok (.seReg x y) ∧ decodeWord (wordXyn 0x9 x y 0x0) = .ok (.sneReg x y) ∧
      ∀ n : BitVec 4, n ≠ 0 → decodeWord (wordXyn 0x5 x y n) = .error (.unknownInstruction (wordXyn 0x5 x y n)) ∧
        decodeWord (wordXyn 0x9 x y n) = .error (.unknownInstruction (wordXyn 0x9 x y n))) ∧
    (∃ t, exec (.seImm x nn) s = .next t ∧ t.pc = (if s.reg x = nn then s.pc + 4 else s.pc + 2) ∧
      Frame s t fun p => p = .pc) ∧
    (∃ t, exec (.sneImm x nn) s = .next t ∧ t.pc = (if s.reg x ≠ nn then s.pc + 4 else s.pc + 2) ∧
      Frame s t fun p => p = .pc) ∧
    (∃ t, exec (.seReg x y) s = .next t ∧ t.pc = (if s.reg x = s.reg y then s.pc + 4 else s.pc + 2) ∧
      Frame s t fun p => p = .pc) ∧
    (∃ t, exec (.sneReg x y) s = .next t ∧ t.pc = (if s.reg x ≠ s.reg y then s.pc + 4 else s.pc + 2) ∧
      Frame s t fun p => p = .pc)

/-- BNNN: pc := NNN + V0, without wrap (40_control_flow.md R87; derived: D17). -/
def Obligations.JumpWithOffsetAddsV0 : Prop :=
  ∀ (s : State) (addr : Addr), ∃ t, exec (.jpV0 addr) s = .next t ∧ t.pc.toNat = addr.toNat + (s.reg 0).toNat ∧
    Frame s t fun p => p = .pc

/-- 2NNN pushes the address after itself and goes to NNN, when the stack has room; with 16 entries it raises
STACK_OVERFLOW and pushes nothing (40_control_flow.md R82; derived: D7, D11). -/
def Obligations.CallPushesTheReturnAddress : Prop :=
  ∀ (s : State) (addr : Addr),
    (s.stack.length < 16 → ∃ t, exec (.call addr) s = .next t ∧ t.stack = (s.pc + 2) :: s.stack ∧
      t.pc.toNat = addr.toNat ∧ Frame s t fun p => p = .pc ∨ p = .stack) ∧
    (s.stack.length = 16 → ∃ t, exec (.call addr) s = .next t ∧ Raised s t .stackOverflow (some (encode (.call addr))))

/-- 00EE goes to the top entry and removes it; with an empty stack it raises STACK_UNDERFLOW (40_control_flow.md R80;
derived: D11). -/
def Obligations.ReturnPopsTheTopEntry : Prop :=
  ∀ s : State,
    (∀ a rest, s.stack = a :: rest → ∃ t, exec .ret s = .next t ∧ t.pc = a ∧ t.stack = rest ∧
      Frame s t fun p => p = .pc ∨ p = .stack) ∧
    (s.stack = [] → ∃ t, exec .ret s = .next t ∧ Raised s t .stackUnderflow (some 0x00EE))

/-- A call and the return after it come back to the instruction after the call, with everything else as before it
(40_control_flow.md R82 corner cases, 90_conflicts.md C7). -/
def Obligations.CallThenReturnComesBack : Prop :=
  ∀ (s : State) (addr : Addr), s.stack.length < 16 →
    ∃ t u, exec (.call addr) s = .next t ∧ exec .ret t = .next u ∧ u.pc = s.pc + 2 ∧ Frame s u fun p => p = .pc

/-! ### Address register and memory -/

/-- ANNN and FX29: the encodings, and I set to NNN and to 5 times VX unmasked (42_index_memory.md R110, R112). -/
def Obligations.AddressRegisterIsSet : Prop :=
  (∀ (x : Reg) (addr : Addr), decodeWord (wordNnn 0xA addr) = .ok (.ldI addr) ∧
    decodeWord (wordXnn 0xF x 0x29) = .ok (.ldFVx x)) ∧
  (∀ (s : State) (addr : Addr), ∃ t, exec (.ldI addr) s = .next t ∧ t.i.toNat = addr.toNat ∧ t.pc = s.pc + 2 ∧
    Frame s t fun p => p = .i ∨ p = .pc) ∧
  (∀ (s : State) (x : Reg), ∃ t, exec (.ldFVx x) s = .next t ∧ t.i.toNat = 5 * (s.reg x).toNat ∧ t.pc = s.pc + 2 ∧
    Frame s t fun p => p = .i ∨ p = .pc)

/-- FX1E adds VX to I and writes no flag; a sum above 0xFFFF raises I_OVERFLOW (42_index_memory.md R111; derived: D16,
D11). -/
def Obligations.AddToAddressRegister : Prop :=
  ∀ (s : State) (x : Reg),
    (s.i.toNat + (s.reg x).toNat ≤ 0xFFFF → ∃ t, exec (.addIVx x) s = .next t ∧
      t.i.toNat = s.i.toNat + (s.reg x).toNat ∧ t.pc = s.pc + 2 ∧ Frame s t fun p => p = .i ∨ p = .pc) ∧
    (s.i.toNat + (s.reg x).toNat > 0xFFFF → ∃ t, exec (.addIVx x) s = .next t ∧
      Raised s t .iOverflow (some (encode (.addIVx x))))

/-- FX33 stores the three decimal digits of VX at I, I+1 and I+2, which sum back to VX, and leaves I; from I = 0xFFE on
it raises ADDRESS_OUT_OF_RANGE and writes nothing (42_index_memory.md R113; derived: D11). -/
def Obligations.DecimalDigitsAreStored : Prop :=
  ∀ (s : State) (x : Reg),
    (s.i.toNat < 0xFFE → ∃ (t : State) (d0 d1 d2 : Byte), exec (.ldBVx x) s = .next t ∧
      t.mem.read s.i.toNat = some d0 ∧ t.mem.read (s.i.toNat + 1) = some d1 ∧ t.mem.read (s.i.toNat + 2) = some d2 ∧
      d0.toNat ≤ 2 ∧ d1.toNat ≤ 9 ∧ d2.toNat ≤ 9 ∧ 100 * d0.toNat + 10 * d1.toNat + d2.toNat = (s.reg x).toNat ∧
      t.pc = s.pc + 2 ∧ Frame s t fun p => p = .pc ∨ ∃ k, k < 3 ∧ p = .mem (s.dataAddr k)) ∧
    (0xFFE ≤ s.i.toNat → ∃ t, exec (.ldBVx x) s = .next t ∧
      Raised s t .addressOutOfRange (some (encode (.ldBVx x))))

/-- FX55 stores V0 to VX from I on and advances I by X + 1; when I + X leaves memory it raises ADDRESS_OUT_OF_RANGE and
writes nothing (42_index_memory.md R114; derived: D11). -/
def Obligations.RegistersAreStoredAtI : Prop :=
  ∀ (s : State) (x : Reg),
    (s.i.toNat + x.val < 0x1000 → ∃ t, exec (.storeRegs x) s = .next t ∧
      (∀ k : Reg, k ≤ x → t.mem.read (s.dataAddr k.val) = some (s.reg k)) ∧ t.i.toNat = s.i.toNat + x.val + 1 ∧
      t.pc = s.pc + 2 ∧ Frame s t fun p => p = .pc ∨ p = .i ∨ ∃ k, k ≤ x.val ∧ p = .mem (s.dataAddr k)) ∧
    (0x1000 ≤ s.i.toNat + x.val → ∃ t, exec (.storeRegs x) s = .next t ∧
      Raised s t .addressOutOfRange (some (encode (.storeRegs x))))

/-- FX65 loads V0 to VX from I on and advances I by X + 1, registers above X as before; when I + X leaves memory it
raises ADDRESS_OUT_OF_RANGE and loads nothing (42_index_memory.md R115; derived: D11). -/
def Obligations.RegistersAreLoadedFromI : Prop :=
  ∀ (s : State) (x : Reg),
    (s.i.toNat + x.val < 0x1000 → ∃ t, exec (.loadRegs x) s = .next t ∧
      (∀ k : Reg, k ≤ x → some (t.reg k) = s.mem.read (s.dataAddr k.val)) ∧ t.i.toNat = s.i.toNat + x.val + 1 ∧
      t.pc = s.pc + 2 ∧ Frame s t fun p => p = .pc ∨ p = .i ∨ ∃ r, r ≤ x ∧ p = .reg r) ∧
    (0x1000 ≤ s.i.toNat + x.val → ∃ t, exec (.loadRegs x) s = .next t ∧
      Raised s t .addressOutOfRange (some (encode (.loadRegs x))))

/-- What FX55 stored, FX65 with I back at the start loads again: from any state that agrees on memory, V0 to VX come
back whatever the registers then hold (42_index_memory.md R114, R115; derived from both). -/
def Obligations.StoredRegistersLoadBack : Prop :=
  ∀ (s t u : State) (x : Reg), s.i.toNat + x.val < 0x1000 → exec (.storeRegs x) s = .next t →
    (∀ a, u.mem.read a = t.mem.read a) → u.i = s.i →
    ∃ u', exec (.loadRegs x) u = .next u' ∧ u'.i = t.i ∧ ∀ k : Reg, k ≤ x → u'.reg k = s.reg k

/-! ### Display -/

/-- 00E0 exactly is the clear; it turns all 2048 pixels off and changes nothing else (43_display.md R120). -/
def Obligations.ClearTurnsEveryPixelOff : Prop :=
  (∀ w, decodeWord w = .ok .cls ↔ w = 0x00E0) ∧
  ∀ s : State, ∃ t, exec .cls s = .next t ∧ (∀ x y, t.pixel x y = false) ∧ t.pc = s.pc + 2 ∧
    Frame s t fun p => p = .pc ∨ ∃ x y, p = .pixel x y

/-- DXYN: a pixel is on after the draw exactly if it was on before or a bit of the sprite falls on it, the bit 7 - c of
the byte at I + r on column (VX + c) mod 64 and row (VY + r) mod 32; VF is 1 if a pixel went from off to on and 0
otherwise. N = 0 draws nothing from any I (43_display.md R121 to R126; derived: D19, D21). -/
def Obligations.DrawCompositesTheSprite : Prop :=
  ∀ (s : State) (x y : Reg) (n : Nat), n = 0 ∨ s.i.toNat + n ≤ 0x1000 →
    ∃ t, exec (.drw x y n) s = .next t ∧
      (∀ px py, t.pixel px py = true ↔ s.pixel px py = true ∨ ∃ r c row, r < n ∧ c < 8 ∧
        s.mem.read (s.dataAddr r) = some row ∧ row.getLsbD (7 - c) = true ∧
        px.val = ((s.reg x).toNat + c) % 64 ∧ py.val = ((s.reg y).toNat + r) % 32) ∧
      ((∃ px py, s.pixel px py = false ∧ t.pixel px py = true) → t.reg vf = 1) ∧
      ((¬ ∃ px py, s.pixel px py = false ∧ t.pixel px py = true) → t.reg vf = 0) ∧ t.pc = s.pc + 2 ∧
      Frame s t fun p => p = .pc ∨ p = .reg vf ∨ ∃ px py, p = .pixel px py

/-- Drawing the same sprite at the same place again changes no pixel and sets VF to 0 (43_display.md R121 corner cases,
R125; derived: D21). The second draw runs in any state `u` that has the first draw's picture, the same I, memory and
coordinates. -/
def Obligations.SecondDrawHitsNothing : Prop :=
  ∀ (s t u : State) (x y : Reg) (n : Nat), n = 0 ∨ s.i.toNat + n ≤ 0x1000 → exec (.drw x y n) s = .next t →
    u.fb = t.fb → (∀ a, u.mem.read a = s.mem.read a) → u.i = s.i → u.reg x = s.reg x → u.reg y = s.reg y →
    ∃ u', exec (.drw x y n) u = .next u' ∧ u'.reg vf = 0 ∧ ∀ px py, u'.pixel px py = t.pixel px py

/-! ### Keypad and timer -/

/-- EX9E and EXA1 skip on the key VX names, pressed and not pressed; an index above 15 raises KEY_INDEX_OUT_OF_RANGE
(44_keypad_timer.md R130, R131; derived: D15, D11). -/
def Obligations.KeySkipsTestTheKey : Prop :=
  ∀ (s : State) (x : Reg),
    (∀ k : KeyIndex, (s.reg x).toNat = k.val →
      (∃ t, exec (.skp x) s = .next t ∧ t.pc = (if s.key k = true then s.pc + 4 else s.pc + 2) ∧
        Frame s t fun p => p = .pc) ∧
      (∃ t, exec (.sknp x) s = .next t ∧ t.pc = (if s.key k = false then s.pc + 4 else s.pc + 2) ∧
        Frame s t fun p => p = .pc)) ∧
    (16 ≤ (s.reg x).toNat →
      (∃ t, exec (.skp x) s = .next t ∧ Raised s t .keyIndexOutOfRange (some (encode (.skp x)))) ∧
      (∃ t, exec (.sknp x) s = .next t ∧ Raised s t .keyIndexOutOfRange (some (encode (.sknp x)))))

/-- FX07 reads DT into VX and FX15 writes VX to DT, no flag, nothing else; with their encodings (44_keypad_timer.md R132,
R133). -/
def Obligations.DelayTimerIsReadAndSet : Prop :=
  ∀ (s : State) (x : Reg),
    (decodeWord (wordXnn 0xF x 0x07) = .ok (.ldVxDt x) ∧ decodeWord (wordXnn 0xF x 0x15) = .ok (.ldDtVx x)) ∧
    (∃ t, exec (.ldVxDt x) s = .next t ∧ t.reg x = s.dt ∧ t.pc = s.pc + 2 ∧ Frame s t fun p => p = .reg x ∨ p = .pc) ∧
    (∃ t, exec (.ldDtVx x) s = .next t ∧ t.dt = s.reg x ∧ t.pc = s.pc + 2 ∧ Frame s t fun p => p = .dt ∨ p = .pc)

/-- FX18 only advances pc (44_keypad_timer.md R134; derived: D32). -/
def Obligations.AudioOpcodeOnlyAdvances : Prop :=
  ∀ (s : State) (x : Reg), ∃ t, exec (.ldStVx x) s = .next t ∧ t.pc = s.pc + 2 ∧ Frame s t fun p => p = .pc

/-- FX0A records X in WAKE, enters WaitingForKey with pc after itself, and writes no V register (44_keypad_timer.md R135).
-/
def Obligations.KeyWaitRecordsItsRegister : Prop :=
  ∀ (s : State) (x : Reg), ∃ t, exec (.ldVxK x) s = .next t ∧ t.wake.toNat = x.val ∧ t.execState = .waitingForKey ∧
    t.pc = s.pc + 2 ∧ Frame s t fun p => p = .wake ∨ p = .execState ∨ p = .pc

/-- From FX0A to the key: a STEP of FX0A, then KEY_UP(k), leaves k in VX, Running, and pc after FX0A, with every other
register as before (44_keypad_timer.md R135, R137, R139; derived: D22). The command queue is the model's (log 1). -/
def Obligations.KeyWaitDeliversTheReleasedKey : Prop :=
  ∀ (s : State) (r : Byte) (rest : List Command) (k : KeyIndex) (x : Reg),
    s.inputs = .step r :: .keyUp k :: rest → s.Executes (.ldVxK x) →
    ∃ t u, step s = .next t ∧ step t = .next u ∧ (u.reg x).toNat = k.val ∧ u.execState = .running ∧ u.pc = s.pc + 2 ∧
      u.key k = false ∧ u.inputs = rest ∧ ∀ y, y ≠ x → u.reg y = s.reg y
end

