-- ==== Sys2Proof/Laws/Decode.lean ====
section
/-! SUPPORT. The laws of the word formats of 30_encoding.md R61: the value of a field and of an assembled word, the fields
of an assembled word, and a word assembled again from its fields. -/

namespace Sys2Proof

variable (w : Word) (op n : BitVec 4) (x y : Reg) (nn hi lo : Byte) (addr : Addr)

/-! ### Values -/

theorem wordNnn_toNat : (wordNnn op addr).toNat = op.toNat * 4096 + addr.toNat := by
  rw [wordNnn, BitVec.toNat_append, ← Nat.shiftLeft_add_eq_or_of_lt addr.isLt, Nat.shiftLeft_eq]

theorem wordXnn_toNat : (wordXnn op x nn).toNat = op.toNat * 4096 + x.val * 256 + nn.toNat := by
  rw [show wordXnn op x nn = wordNnn op (regBits x ++ nn) from rfl, wordNnn_toNat, BitVec.toNat_append,
    ← Nat.shiftLeft_add_eq_or_of_lt nn.isLt, Nat.shiftLeft_eq, show (regBits x).toNat = x.val from rfl]
  omega

theorem wordXyn_toNat : (wordXyn op x y n).toNat = op.toNat * 4096 + x.val * 256 + y.val * 16 + n.toNat := by
  rw [show wordXyn op x y n = wordXnn op x (regBits y ++ n) from rfl, wordXnn_toNat, BitVec.toNat_append,
    ← Nat.shiftLeft_add_eq_or_of_lt n.isLt, Nat.shiftLeft_eq, show (regBits y).toNat = y.val from rfl]
  omega

theorem wordOfBytes_toNat : (wordOfBytes hi lo).toNat = 256 * hi.toNat + lo.toNat := by
  rw [wordOfBytes, BitVec.toNat_append, ← Nat.shiftLeft_add_eq_or_of_lt lo.isLt, Nat.shiftLeft_eq]
  omega

theorem opField_toNat : (opField w).toNat = w.toNat / 4096 := by
  simp only [opField, BitVec.extractLsb'_toNat, Nat.shiftRight_eq_div_pow]; omega

theorem xField_val : (xField w).val = w.toNat / 256 % 16 := by
  show (BitVec.extractLsb' 8 4 w).toNat = _
  simp only [BitVec.extractLsb'_toNat, Nat.shiftRight_eq_div_pow]

theorem yField_val : (yField w).val = w.toNat / 16 % 16 := by
  show (BitVec.extractLsb' 4 4 w).toNat = _
  simp only [BitVec.extractLsb'_toNat, Nat.shiftRight_eq_div_pow]

theorem nField_toNat : (nField w).toNat = w.toNat % 16 := by
  simp only [nField, BitVec.extractLsb'_toNat, Nat.shiftRight_eq_div_pow]; omega

theorem nnField_toNat : (nnField w).toNat = w.toNat % 256 := by
  simp only [nnField, BitVec.extractLsb'_toNat, Nat.shiftRight_eq_div_pow]; omega

theorem nnnField_toNat : (nnnField w).toNat = w.toNat % 4096 := by
  simp only [nnnField, BitVec.extractLsb'_toNat, Nat.shiftRight_eq_div_pow]; omega

/-! ### The fields of an assembled word -/

theorem wordNnn_fields : opField (wordNnn op addr) = op ∧ nnnField (wordNnn op addr) = addr := by
  have := addr.isLt
  constructor
  · apply BitVec.eq_of_toNat_eq; rw [opField_toNat, wordNnn_toNat]; omega
  · apply BitVec.eq_of_toNat_eq; rw [nnnField_toNat, wordNnn_toNat]; omega

theorem wordXnn_fields :
    opField (wordXnn op x nn) = op ∧ xField (wordXnn op x nn) = x ∧ nnField (wordXnn op x nn) = nn := by
  have := nn.isLt
  have := x.isLt
  refine ⟨?_, ?_, ?_⟩
  · apply BitVec.eq_of_toNat_eq; rw [opField_toNat, wordXnn_toNat]; omega
  · apply Fin.ext; rw [xField_val, wordXnn_toNat]; omega
  · apply BitVec.eq_of_toNat_eq; rw [nnField_toNat, wordXnn_toNat]; omega

theorem wordXyn_fields :
    opField (wordXyn op x y n) = op ∧ xField (wordXyn op x y n) = x ∧ yField (wordXyn op x y n) = y ∧
      nField (wordXyn op x y n) = n := by
  have := n.isLt
  have := x.isLt
  have := y.isLt
  refine ⟨?_, ?_, ?_, ?_⟩
  · apply BitVec.eq_of_toNat_eq; rw [opField_toNat, wordXyn_toNat]; omega
  · apply Fin.ext; rw [xField_val, wordXyn_toNat]; omega
  · apply Fin.ext; rw [yField_val, wordXyn_toNat]; omega
  · apply BitVec.eq_of_toNat_eq; rw [nField_toNat, wordXyn_toNat]; omega

/-! ### A word from its fields -/

theorem wordNnn_of_fields : wordNnn (opField w) (nnnField w) = w := by
  apply BitVec.eq_of_toNat_eq; rw [wordNnn_toNat, opField_toNat, nnnField_toNat]; omega

theorem wordXnn_of_fields : wordXnn (opField w) (xField w) (nnField w) = w := by
  apply BitVec.eq_of_toNat_eq; rw [wordXnn_toNat, opField_toNat, xField_val, nnField_toNat]; omega

theorem wordXyn_of_fields : wordXyn (opField w) (xField w) (yField w) (nField w) = w := by
  apply BitVec.eq_of_toNat_eq; rw [wordXyn_toNat, opField_toNat, xField_val, yField_val, nField_toNat]; omega

theorem wordOfBytes_of_bytes : wordOfBytes (hiByte w) (loByte w) = w := by
  have := w.isLt
  apply BitVec.eq_of_toNat_eq
  rw [wordOfBytes_toNat]
  simp only [hiByte, loByte, BitVec.extractLsb'_toNat, Nat.shiftRight_eq_div_pow]; omega

end Sys2Proof
end

