-- ==== Sys2Proof/Laws/Display.lean ====
section
/-! SUPPORT. The laws of the compositor: which pixels are on after a draw, and that `hit` says whether the draw turned a
pixel on (spec 43_display.md R122 to R125). -/

namespace Sys2Proof.Machine

variable (f : Framebuffer) (k : Framebuffer × Bool) (x0 y0 : Byte) (x x' : Fin Config.fbWidth) (y y' : Fin Config.fbHeight)

/-! ### Pixels -/

@[simp] theorem Framebuffer.pixel_blank : Framebuffer.blank.pixel x y = false := by
  simp only [Framebuffer.blank, Framebuffer.pixel, Vector.get_eq_getElem, Vector.getElem_replicate]
  exact BitVec.getLsbD_zero

theorem Framebuffer.pixel_turnOn : (f.turnOn x y).pixel x' y' = (decide (x' = x ∧ y' = y) || f.pixel x' y') := by
  have hx := x'.isLt
  have bit : (1#64 <<< x.val).getLsbD x'.val = decide (x' = x) := by
    simp only [BitVec.getLsbD_shiftLeft, BitVec.getLsbD_one, Fin.ext_iff]
    by_cases h : x'.val = x.val
    · simp [h]
    · simp only [h, decide_false]
      by_cases h2 : x'.val < x.val
      · simp [h2]
      · have : ¬ (x'.val - x.val = 0) := by omega
        simp [this]
  simp only [Framebuffer.turnOn, Framebuffer.pixel, Vector.get_eq_getElem, Vector.getElem_set]
  by_cases h : y.val = y'.val
  · have hy : y' = y := Fin.ext h.symm
    subst hy
    simp only [if_true, BitVec.getLsbD_or, bit, and_true, Bool.or_comm]
  · have hy : ¬ y' = y := fun e => h (congrArg Fin.val e).symm
    simp [h, hy]

/-! ### What a draw turns on -/

theorem drawBit_pixel (on : Bool) :
    (drawBit x y on k).1.pixel x' y' = true ↔ k.1.pixel x' y' = true ∨ (on = true ∧ x' = x ∧ y' = y) := by
  simp only [drawBit]
  split
  · rename_i h
    simp only [Bool.and_eq_true, Bool.not_eq_eq_eq_not, Bool.not_true] at h
    simp only [Framebuffer.pixel_turnOn, Bool.or_eq_true, decide_eq_true_eq, h.1, true_and]
    exact or_comm
  · rename_i h
    constructor
    · exact Or.inl
    · rintro (h' | ⟨rfl, rfl, rfl⟩)
      · exact h'
      · simpa using h

/-- A row turns on the pixels of its bits, at wrapped columns, and no other. -/
theorem drawRow_pixel (row : Byte) :
    (drawRow x0 y row k).1.pixel x' y' = true ↔
      k.1.pixel x' y' = true ∨ ∃ c, c < 8 ∧ spriteBit row c = true ∧ x' = spriteColumn x0 c ∧ y' = y := by
  have fold : ∀ (l : List Nat) (k : Framebuffer × Bool),
      (l.foldl (fun k c => drawBit (spriteColumn x0 c) y (spriteBit row c) k) k).1.pixel x' y' = true ↔
        k.1.pixel x' y' = true ∨ ∃ c, c ∈ l ∧ spriteBit row c = true ∧ x' = spriteColumn x0 c ∧ y' = y := by
    intro l
    induction l with
    | nil => simp
    | cons c l ih =>
      intro k
      rw [List.foldl_cons, ih, drawBit_pixel, or_assoc]
      simp only [List.mem_cons, or_and_right, exists_or, exists_eq_left]
  simp only [drawRow, fold, List.mem_range]

/-- A draw turns on the pixels of its sprite's bits, wrapped per pixel, and no other. -/
theorem drawRows_pixel (r : Nat) (rows : List Byte) :
    (drawRows x0 y0 r rows k).1.pixel x' y' = true ↔
      k.1.pixel x' y' = true ∨ ∃ j c, j < rows.length ∧ c < 8 ∧ spriteBit (rows.getD j 0) c = true ∧
        x' = spriteColumn x0 c ∧ y' = spriteLine y0 (r + j) := by
  induction rows generalizing r k with
  | nil => simp [drawRows]
  | cons row rows ih =>
    rw [drawRows, ih, drawRow_pixel, or_assoc]
    refine or_congr_right ⟨?_, ?_⟩
    · rintro (⟨c, hc, hb, hx, hy⟩ | ⟨j, c, hj, hc, hb, hx, hy⟩)
      · exact ⟨0, c, by simp, hc, by simpa using hb, hx, by simpa using hy⟩
      · exact ⟨j + 1, c, by simpa using hj, hc, by simpa using hb, hx, by rw [hy]; congr 1; omega⟩
    · rintro ⟨j, c, hj, hc, hb, hx, hy⟩
      cases j with
      | zero => exact .inl ⟨c, hc, by simpa using hb, hx, by simpa using hy⟩
      | succ j => exact .inr ⟨j, c, by simpa using hj, hc, by simpa using hb, hx, by rw [hy]; congr 1; omega⟩

/-! ### Hits -/

/-- From canvas `k` to `k'` pixels only turned on, and `hit` was set by a pixel that turned on. -/
def Composed (k k' : Framebuffer × Bool) : Prop :=
  (∀ x y, k.1.pixel x y = true → k'.1.pixel x y = true) ∧
  (k'.2 = true ↔ k.2 = true ∨ ∃ x y, k.1.pixel x y = false ∧ k'.1.pixel x y = true)

theorem Composed.refl : Composed k k :=
  ⟨fun _ _ h => h, by simp⟩

theorem Composed.trans {k k' k'' : Framebuffer × Bool} (h : Composed k k') (h' : Composed k' k'') : Composed k k'' := by
  refine ⟨fun x y hk => h'.1 x y (h.1 x y hk), ?_⟩
  rw [h'.2, h.2, or_assoc]
  refine or_congr_right ⟨?_, ?_⟩
  · rintro (⟨x, y, h0, h1⟩ | ⟨x, y, h0, h1⟩)
    · exact ⟨x, y, h0, h'.1 x y h1⟩
    · refine ⟨x, y, ?_, h1⟩
      by_contra hk
      rw [h.1 x y (by simpa using hk)] at h0
      exact absurd h0 (by decide)
  · rintro ⟨x, y, h0, h1⟩
    by_cases hk : k'.1.pixel x y = true
    · exact .inl ⟨x, y, h0, hk⟩
    · exact .inr ⟨x, y, by simpa using hk, h1⟩

theorem drawBit_composed (on : Bool) : Composed k (drawBit x y on k) := by
  refine ⟨fun x' y' h => (drawBit_pixel k x x' y y' on).mpr (.inl h), ?_⟩
  constructor
  · intro h
    by_cases hc : (on && !k.1.pixel x y) = true
    · have hs := hc
      simp only [Bool.and_eq_true, Bool.not_eq_eq_eq_not, Bool.not_true] at hs
      exact .inr ⟨x, y, hs.2, (drawBit_pixel k x x y y on).mpr (.inr ⟨hs.1, rfl, rfl⟩)⟩
    · rw [drawBit, if_neg hc] at h
      exact .inl h
  · rintro (h | ⟨x', y', h0, h1⟩)
    · rw [drawBit]; split
      · rfl
      · exact h
    · rcases (drawBit_pixel k x x' y y' on).mp h1 with h2 | ⟨hon, rfl, rfl⟩
      · rw [h0] at h2; exact absurd h2 (by decide)
      · rw [drawBit, if_pos (by simp [hon, h0])]

theorem drawRow_composed (row : Byte) : Composed k (drawRow x0 y row k) := by
  have fold : ∀ (l : List Nat) (k : Framebuffer × Bool),
      Composed k (l.foldl (fun k c => drawBit (spriteColumn x0 c) y (spriteBit row c) k) k) := by
    intro l
    induction l with
    | nil => exact Composed.refl
    | cons c l ih => exact fun k => (drawBit_composed k _ y _).trans (ih _)
  exact fold _ k

/-- A whole draw: pixels only turn on, and `hit` says whether one did. -/
theorem drawRows_composed (r : Nat) (rows : List Byte) : Composed k (drawRows x0 y0 r rows k) := by
  induction rows generalizing r k with
  | nil => exact Composed.refl k
  | cons row rows ih => exact (drawRow_composed k x0 _ row).trans (ih _ _)

end Sys2Proof.Machine
end

