-- ==== Sys2Proof/Laws/Memory.lean ====
section
/-! SUPPORT. The laws of memory: what a store changes and what it leaves, that every memory operation keeps the
canonical form, and what the multi-byte accesses do (spec 20_memory.md R45, R49, R53). -/

namespace Sys2Proof.Machine

variable (m : Memory) (a b : Nat) (u : Byte)

/-! ### One byte -/

theorem Memory.get_insert : (m.insert a u).get b = if b = a then u else m.get b := by
  induction m with
  | nil => simp only [Memory.insert, Memory.get]
  | cons c rest ih =>
    obtain ⟨d, w⟩ := c
    simp only [Memory.insert]
    split
    · simp only [Memory.get]
    · split
      · subst_vars; simp only [Memory.get]; split <;> rfl
      · simp only [Memory.get, ih]; split <;> split <;> first | rfl | omega

theorem Memory.get_erase : (m.erase a).get b = if b = a then resetByte a else m.get b := by
  induction m with
  | nil => simp only [Memory.erase, List.filter_nil, Memory.get]; split <;> simp_all
  | cons c rest ih =>
    obtain ⟨d, w⟩ := c
    simp only [Memory.erase] at ih
    simp only [Memory.erase, List.filter_cons]
    split
    · simp only [Memory.get, ih]; split <;> split <;> simp_all
    · simp only [Memory.get, ih]; split <;> simp_all

/-- A store is seen by the next read of that address and by no other. -/
theorem Memory.get_put : (m.put a u).get b = if b = a then u else m.get b := by
  simp only [Memory.put]
  split
  · rename_i h; rw [Memory.get_erase, h]
  · rw [Memory.get_insert]

theorem Memory.read_put (h : a < 0x1000) : (m.put a u).read b = if b = a then some u else m.read b := by
  simp only [Memory.read, Memory.get_put, Config.memSize]
  by_cases hb : b = a
  · rw [if_pos hb, if_pos hb, if_pos (by omega)]
  · rw [if_neg hb, if_neg hb]

theorem Memory.read_lt (h : a < 0x1000) : m.read a = some (m.get a) := by
  simp [Memory.read, h]

theorem Memory.read_ge (h : 0x1000 ≤ a) : m.read a = none := by
  simp only [Memory.read, Config.memSize, if_neg (Nat.not_lt.mpr h)]

/-! ### The canonical form -/

theorem Memory.wfFrom_mono {lo lo' : Nat} (h : lo' ≤ lo) {m : Memory} (hm : Memory.wfFrom lo m = true) :
    Memory.wfFrom lo' m = true := by
  cases m with
  | nil => rfl
  | cons c rest =>
    simp only [Memory.wfFrom, Bool.and_eq_true, decide_eq_true_eq] at hm ⊢
    exact ⟨⟨⟨by omega, hm.1.1.2⟩, hm.1.2⟩, hm.2⟩

theorem Memory.insert_wfFrom {lo : Nat} {m : Memory} {a : Nat} {u : Byte} (hm : Memory.wfFrom lo m = true) (hlo : lo ≤ a)
    (ha : a < 0x1000) (hu : u ≠ resetByte a) : Memory.wfFrom lo (m.insert a u) = true := by
  induction m generalizing lo with
  | nil => simp [Memory.insert, Memory.wfFrom, hlo, ha, hu]
  | cons c rest ih =>
    obtain ⟨d, w⟩ := c
    simp only [Memory.wfFrom, Bool.and_eq_true, decide_eq_true_eq] at hm
    simp only [Memory.insert]
    split
    · simp only [Memory.wfFrom, Bool.and_eq_true, decide_eq_true_eq]
      exact ⟨⟨⟨hlo, ha⟩, hu⟩, ⟨⟨by omega, hm.1.1.2⟩, hm.1.2⟩, hm.2⟩
    · split
      · subst_vars
        simp only [Memory.wfFrom, Bool.and_eq_true, decide_eq_true_eq]
        exact ⟨⟨⟨hlo, ha⟩, hu⟩, hm.2⟩
      · simp only [Memory.wfFrom, Bool.and_eq_true, decide_eq_true_eq]
        exact ⟨hm.1, ih hm.2 (by omega)⟩

theorem Memory.erase_wfFrom {lo : Nat} {m : Memory} (a : Nat) (hm : Memory.wfFrom lo m = true) :
    Memory.wfFrom lo (m.erase a) = true := by
  induction m generalizing lo with
  | nil => rfl
  | cons c rest ih =>
    obtain ⟨d, w⟩ := c
    simp only [Memory.wfFrom, Bool.and_eq_true, decide_eq_true_eq] at hm
    simp only [Memory.erase] at ih
    simp only [Memory.erase, List.filter_cons]
    split
    · simp only [Memory.wfFrom, Bool.and_eq_true, decide_eq_true_eq]
      exact ⟨hm.1, ih hm.2⟩
    · exact Memory.wfFrom_mono (by omega) (ih hm.2)

/-- A store keeps the canonical form. -/
theorem Memory.put_wf {m : Memory} {a : Nat} (u : Byte) (hm : m.wf = true) (ha : a < 0x1000) : (m.put a u).wf = true := by
  simp only [Memory.put]
  split
  · exact Memory.erase_wfFrom a hm
  · exact Memory.insert_wfFrom hm (Nat.zero_le a) ha ‹_›

theorem Memory.putBytes_wf {m : Memory} {a : Nat} {us : List Byte} (hm : m.wf = true) (h : a + us.length ≤ 0x1000) :
    (m.putBytes a us).wf = true := by
  induction us generalizing m a with
  | nil => exact hm
  | cons u us ih =>
    simp only [List.length_cons] at h
    exact ih (Memory.put_wf u hm (by omega)) (by omega)

/-! ### Several bytes -/

theorem inRange_iff (n : Nat) : inRange a n = true ↔ n = 0 ∨ a + n ≤ 0x1000 := by
  simp only [inRange, Bool.or_eq_true, decide_eq_true_eq, Config.memSize]

/-- What a multi-byte store leaves: its bytes at its addresses, and every other address as before. -/
theorem Memory.get_putBytes (us : List Byte) :
    (m.putBytes a us).get b = if a ≤ b ∧ b < a + us.length then us.getD (b - a) 0 else m.get b := by
  induction us generalizing m a with
  | nil =>
    simp only [Memory.putBytes, List.length_nil]
    rw [if_neg (by omega)]
  | cons u us ih =>
    simp only [Memory.putBytes, ih, Memory.get_put, List.length_cons]
    by_cases h1 : b = a
    · subst h1
      rw [if_neg (by omega), if_pos (by omega), if_pos (by omega), Nat.sub_self]; rfl
    · by_cases h2 : a + 1 ≤ b ∧ b < a + 1 + us.length
      · rw [if_pos h2, if_pos (by omega), show b - a = (b - (a + 1)) + 1 by omega]; rfl
      · rw [if_neg h2, if_neg h1, if_neg (by omega)]

/-- The checked multi-byte store, said once: it succeeds exactly in range. -/
theorem Memory.writeBytes_eq_some {m m' : Memory} {a : Nat} {us : List Byte} :
    m.writeBytes a us = some m' ↔ (us.length = 0 ∨ a + us.length ≤ 0x1000) ∧ m' = m.putBytes a us := by
  rw [← inRange_iff, Memory.writeBytes]
  split <;> rename_i h <;> simp [h, eq_comm]

theorem Memory.writeBytes_eq_none {m : Memory} {a : Nat} {us : List Byte} :
    m.writeBytes a us = none ↔ us.length ≠ 0 ∧ 0x1000 < a + us.length := by
  have h := inRange_iff a us.length
  rw [Memory.writeBytes]
  split
  · rename_i hr; have := h.mp hr; simp only [reduceCtorEq, false_iff]; omega
  · rename_i hr; simp only [true_iff]; rw [h] at hr; omega

/-- The checked multi-byte read, said once: it succeeds exactly in range. -/
theorem Memory.readBytes_eq_some {m : Memory} {a n : Nat} {us : List Byte} :
    m.readBytes a n = some us ↔ (n = 0 ∨ a + n ≤ 0x1000) ∧ us = (List.range n).map fun k => m.get (a + k) := by
  rw [← inRange_iff, Memory.readBytes]
  split <;> rename_i h <;> simp [h, eq_comm]

theorem Memory.readBytes_eq_none {m : Memory} {a n : Nat} :
    m.readBytes a n = none ↔ n ≠ 0 ∧ 0x1000 < a + n := by
  have h := inRange_iff a n
  rw [Memory.readBytes]
  split
  · rename_i hr; have := h.mp hr; simp only [reduceCtorEq, false_iff]; omega
  · rename_i hr; simp only [true_iff]; rw [h] at hr; omega

/-- The checked multi-byte store keeps the canonical form. -/
theorem Memory.writeBytes_wf {m m' : Memory} {a : Nat} {us : List Byte} (hm : m.wf = true)
    (h : m.writeBytes a us = some m') : m'.wf = true := by
  obtain ⟨hr | hr, rfl⟩ := Memory.writeBytes_eq_some.mp h
  · rw [List.length_eq_zero_iff.mp hr]; exact hm
  · exact Memory.putBytes_wf hm hr

/-- Memory after reset is in canonical form. -/
theorem State.reset_mem_wf : State.reset.mem.wf = true := rfl

end Sys2Proof.Machine
end

