-- ==== Sys2Proof/Laws/State.lean ====
section
/-! SUPPORT. One lemma a field an update of the state, and one an observation (`reg`, `key`, `pixel`), all true by
unfolding once, so that no later proof unfolds a record update. -/

namespace Sys2Proof.Machine

variable (s : State)

/-! ### setMem -/

@[simp] theorem State.setMem_mem (m : Memory) : (s.setMem m).mem = m := rfl
@[simp] theorem State.setMem_v (m : Memory) : (s.setMem m).v = s.v := rfl
@[simp] theorem State.setMem_i (m : Memory) : (s.setMem m).i = s.i := rfl
@[simp] theorem State.setMem_pc (m : Memory) : (s.setMem m).pc = s.pc := rfl
@[simp] theorem State.setMem_stack (m : Memory) : (s.setMem m).stack = s.stack := rfl
@[simp] theorem State.setMem_dt (m : Memory) : (s.setMem m).dt = s.dt := rfl
@[simp] theorem State.setMem_keys (m : Memory) : (s.setMem m).keys = s.keys := rfl
@[simp] theorem State.setMem_fb (m : Memory) : (s.setMem m).fb = s.fb := rfl
@[simp] theorem State.setMem_execState (m : Memory) : (s.setMem m).execState = s.execState := rfl
@[simp] theorem State.setMem_wake (m : Memory) : (s.setMem m).wake = s.wake := rfl
@[simp] theorem State.setMem_faultRecord (m : Memory) : (s.setMem m).faultRecord = s.faultRecord := rfl
@[simp] theorem State.setMem_loadResponse (m : Memory) : (s.setMem m).loadResponse = s.loadResponse := rfl
@[simp] theorem State.setMem_inputs (m : Memory) : (s.setMem m).inputs = s.inputs := rfl
@[simp] theorem State.setMem_rnd (m : Memory) : (s.setMem m).rnd = s.rnd := rfl
@[simp] theorem State.setMem_draws (m : Memory) : (s.setMem m).draws = s.draws := rfl
@[simp] theorem State.setMem_reg (m : Memory) (r' : Reg) : (s.setMem m).reg r' = s.reg r' := rfl
@[simp] theorem State.setMem_key (m : Memory) (k' : KeyIndex) : (s.setMem m).key k' = s.key k' := rfl
@[simp] theorem State.setMem_pixel (m : Memory) (x' : Fin Config.fbWidth) (y' : Fin Config.fbHeight) :
    (s.setMem m).pixel x' y' = s.pixel x' y' := rfl

/-! ### setReg -/

@[simp] theorem State.setReg_mem (x : Reg) (u : Byte) : (s.setReg x u).mem = s.mem := rfl
@[simp] theorem State.setReg_v (x : Reg) (u : Byte) : (s.setReg x u).v = s.v.set x u := rfl
@[simp] theorem State.setReg_i (x : Reg) (u : Byte) : (s.setReg x u).i = s.i := rfl
@[simp] theorem State.setReg_pc (x : Reg) (u : Byte) : (s.setReg x u).pc = s.pc := rfl
@[simp] theorem State.setReg_stack (x : Reg) (u : Byte) : (s.setReg x u).stack = s.stack := rfl
@[simp] theorem State.setReg_dt (x : Reg) (u : Byte) : (s.setReg x u).dt = s.dt := rfl
@[simp] theorem State.setReg_keys (x : Reg) (u : Byte) : (s.setReg x u).keys = s.keys := rfl
@[simp] theorem State.setReg_fb (x : Reg) (u : Byte) : (s.setReg x u).fb = s.fb := rfl
@[simp] theorem State.setReg_execState (x : Reg) (u : Byte) : (s.setReg x u).execState = s.execState := rfl
@[simp] theorem State.setReg_wake (x : Reg) (u : Byte) : (s.setReg x u).wake = s.wake := rfl
@[simp] theorem State.setReg_faultRecord (x : Reg) (u : Byte) : (s.setReg x u).faultRecord = s.faultRecord := rfl
@[simp] theorem State.setReg_loadResponse (x : Reg) (u : Byte) : (s.setReg x u).loadResponse = s.loadResponse := rfl
@[simp] theorem State.setReg_inputs (x : Reg) (u : Byte) : (s.setReg x u).inputs = s.inputs := rfl
@[simp] theorem State.setReg_rnd (x : Reg) (u : Byte) : (s.setReg x u).rnd = s.rnd := rfl
@[simp] theorem State.setReg_draws (x : Reg) (u : Byte) : (s.setReg x u).draws = s.draws := rfl
@[simp] theorem State.setReg_key (x : Reg) (u : Byte) (k' : KeyIndex) : (s.setReg x u).key k' = s.key k' := rfl
@[simp] theorem State.setReg_pixel (x : Reg) (u : Byte) (x' : Fin Config.fbWidth) (y' : Fin Config.fbHeight) :
    (s.setReg x u).pixel x' y' = s.pixel x' y' := rfl

/-! ### setI -/

@[simp] theorem State.setI_mem (a : Word) : (s.setI a).mem = s.mem := rfl
@[simp] theorem State.setI_v (a : Word) : (s.setI a).v = s.v := rfl
@[simp] theorem State.setI_i (a : Word) : (s.setI a).i = a := rfl
@[simp] theorem State.setI_pc (a : Word) : (s.setI a).pc = s.pc := rfl
@[simp] theorem State.setI_stack (a : Word) : (s.setI a).stack = s.stack := rfl
@[simp] theorem State.setI_dt (a : Word) : (s.setI a).dt = s.dt := rfl
@[simp] theorem State.setI_keys (a : Word) : (s.setI a).keys = s.keys := rfl
@[simp] theorem State.setI_fb (a : Word) : (s.setI a).fb = s.fb := rfl
@[simp] theorem State.setI_execState (a : Word) : (s.setI a).execState = s.execState := rfl
@[simp] theorem State.setI_wake (a : Word) : (s.setI a).wake = s.wake := rfl
@[simp] theorem State.setI_faultRecord (a : Word) : (s.setI a).faultRecord = s.faultRecord := rfl
@[simp] theorem State.setI_loadResponse (a : Word) : (s.setI a).loadResponse = s.loadResponse := rfl
@[simp] theorem State.setI_inputs (a : Word) : (s.setI a).inputs = s.inputs := rfl
@[simp] theorem State.setI_rnd (a : Word) : (s.setI a).rnd = s.rnd := rfl
@[simp] theorem State.setI_draws (a : Word) : (s.setI a).draws = s.draws := rfl
@[simp] theorem State.setI_reg (a : Word) (r' : Reg) : (s.setI a).reg r' = s.reg r' := rfl
@[simp] theorem State.setI_key (a : Word) (k' : KeyIndex) : (s.setI a).key k' = s.key k' := rfl
@[simp] theorem State.setI_pixel (a : Word) (x' : Fin Config.fbWidth) (y' : Fin Config.fbHeight) :
    (s.setI a).pixel x' y' = s.pixel x' y' := rfl

/-! ### setPc -/

@[simp] theorem State.setPc_mem (a : Word) : (s.setPc a).mem = s.mem := rfl
@[simp] theorem State.setPc_v (a : Word) : (s.setPc a).v = s.v := rfl
@[simp] theorem State.setPc_i (a : Word) : (s.setPc a).i = s.i := rfl
@[simp] theorem State.setPc_pc (a : Word) : (s.setPc a).pc = a := rfl
@[simp] theorem State.setPc_stack (a : Word) : (s.setPc a).stack = s.stack := rfl
@[simp] theorem State.setPc_dt (a : Word) : (s.setPc a).dt = s.dt := rfl
@[simp] theorem State.setPc_keys (a : Word) : (s.setPc a).keys = s.keys := rfl
@[simp] theorem State.setPc_fb (a : Word) : (s.setPc a).fb = s.fb := rfl
@[simp] theorem State.setPc_execState (a : Word) : (s.setPc a).execState = s.execState := rfl
@[simp] theorem State.setPc_wake (a : Word) : (s.setPc a).wake = s.wake := rfl
@[simp] theorem State.setPc_faultRecord (a : Word) : (s.setPc a).faultRecord = s.faultRecord := rfl
@[simp] theorem State.setPc_loadResponse (a : Word) : (s.setPc a).loadResponse = s.loadResponse := rfl
@[simp] theorem State.setPc_inputs (a : Word) : (s.setPc a).inputs = s.inputs := rfl
@[simp] theorem State.setPc_rnd (a : Word) : (s.setPc a).rnd = s.rnd := rfl
@[simp] theorem State.setPc_draws (a : Word) : (s.setPc a).draws = s.draws := rfl
@[simp] theorem State.setPc_reg (a : Word) (r' : Reg) : (s.setPc a).reg r' = s.reg r' := rfl
@[simp] theorem State.setPc_key (a : Word) (k' : KeyIndex) : (s.setPc a).key k' = s.key k' := rfl
@[simp] theorem State.setPc_pixel (a : Word) (x' : Fin Config.fbWidth) (y' : Fin Config.fbHeight) :
    (s.setPc a).pixel x' y' = s.pixel x' y' := rfl

/-! ### setStack -/

@[simp] theorem State.setStack_mem (l : List Word) : (s.setStack l).mem = s.mem := rfl
@[simp] theorem State.setStack_v (l : List Word) : (s.setStack l).v = s.v := rfl
@[simp] theorem State.setStack_i (l : List Word) : (s.setStack l).i = s.i := rfl
@[simp] theorem State.setStack_pc (l : List Word) : (s.setStack l).pc = s.pc := rfl
@[simp] theorem State.setStack_stack (l : List Word) : (s.setStack l).stack = l := rfl
@[simp] theorem State.setStack_dt (l : List Word) : (s.setStack l).dt = s.dt := rfl
@[simp] theorem State.setStack_keys (l : List Word) : (s.setStack l).keys = s.keys := rfl
@[simp] theorem State.setStack_fb (l : List Word) : (s.setStack l).fb = s.fb := rfl
@[simp] theorem State.setStack_execState (l : List Word) : (s.setStack l).execState = s.execState := rfl
@[simp] theorem State.setStack_wake (l : List Word) : (s.setStack l).wake = s.wake := rfl
@[simp] theorem State.setStack_faultRecord (l : List Word) : (s.setStack l).faultRecord = s.faultRecord := rfl
@[simp] theorem State.setStack_loadResponse (l : List Word) : (s.setStack l).loadResponse = s.loadResponse := rfl
@[simp] theorem State.setStack_inputs (l : List Word) : (s.setStack l).inputs = s.inputs := rfl
@[simp] theorem State.setStack_rnd (l : List Word) : (s.setStack l).rnd = s.rnd := rfl
@[simp] theorem State.setStack_draws (l : List Word) : (s.setStack l).draws = s.draws := rfl
@[simp] theorem State.setStack_reg (l : List Word) (r' : Reg) : (s.setStack l).reg r' = s.reg r' := rfl
@[simp] theorem State.setStack_key (l : List Word) (k' : KeyIndex) : (s.setStack l).key k' = s.key k' := rfl
@[simp] theorem State.setStack_pixel (l : List Word) (x' : Fin Config.fbWidth) (y' : Fin Config.fbHeight) :
    (s.setStack l).pixel x' y' = s.pixel x' y' := rfl

/-! ### setDt -/

@[simp] theorem State.setDt_mem (u : Byte) : (s.setDt u).mem = s.mem := rfl
@[simp] theorem State.setDt_v (u : Byte) : (s.setDt u).v = s.v := rfl
@[simp] theorem State.setDt_i (u : Byte) : (s.setDt u).i = s.i := rfl
@[simp] theorem State.setDt_pc (u : Byte) : (s.setDt u).pc = s.pc := rfl
@[simp] theorem State.setDt_stack (u : Byte) : (s.setDt u).stack = s.stack := rfl
@[simp] theorem State.setDt_dt (u : Byte) : (s.setDt u).dt = u := rfl
@[simp] theorem State.setDt_keys (u : Byte) : (s.setDt u).keys = s.keys := rfl
@[simp] theorem State.setDt_fb (u : Byte) : (s.setDt u).fb = s.fb := rfl
@[simp] theorem State.setDt_execState (u : Byte) : (s.setDt u).execState = s.execState := rfl
@[simp] theorem State.setDt_wake (u : Byte) : (s.setDt u).wake = s.wake := rfl
@[simp] theorem State.setDt_faultRecord (u : Byte) : (s.setDt u).faultRecord = s.faultRecord := rfl
@[simp] theorem State.setDt_loadResponse (u : Byte) : (s.setDt u).loadResponse = s.loadResponse := rfl
@[simp] theorem State.setDt_inputs (u : Byte) : (s.setDt u).inputs = s.inputs := rfl
@[simp] theorem State.setDt_rnd (u : Byte) : (s.setDt u).rnd = s.rnd := rfl
@[simp] theorem State.setDt_draws (u : Byte) : (s.setDt u).draws = s.draws := rfl
@[simp] theorem State.setDt_reg (u : Byte) (r' : Reg) : (s.setDt u).reg r' = s.reg r' := rfl
@[simp] theorem State.setDt_key (u : Byte) (k' : KeyIndex) : (s.setDt u).key k' = s.key k' := rfl
@[simp] theorem State.setDt_pixel (u : Byte) (x' : Fin Config.fbWidth) (y' : Fin Config.fbHeight) :
    (s.setDt u).pixel x' y' = s.pixel x' y' := rfl

/-! ### setKey -/

@[simp] theorem State.setKey_mem (k : KeyIndex) (p : Bool) : (s.setKey k p).mem = s.mem := rfl
@[simp] theorem State.setKey_v (k : KeyIndex) (p : Bool) : (s.setKey k p).v = s.v := rfl
@[simp] theorem State.setKey_i (k : KeyIndex) (p : Bool) : (s.setKey k p).i = s.i := rfl
@[simp] theorem State.setKey_pc (k : KeyIndex) (p : Bool) : (s.setKey k p).pc = s.pc := rfl
@[simp] theorem State.setKey_stack (k : KeyIndex) (p : Bool) : (s.setKey k p).stack = s.stack := rfl
@[simp] theorem State.setKey_dt (k : KeyIndex) (p : Bool) : (s.setKey k p).dt = s.dt := rfl
@[simp] theorem State.setKey_keys (k : KeyIndex) (p : Bool) : (s.setKey k p).keys = s.keys.set k p := rfl
@[simp] theorem State.setKey_fb (k : KeyIndex) (p : Bool) : (s.setKey k p).fb = s.fb := rfl
@[simp] theorem State.setKey_execState (k : KeyIndex) (p : Bool) : (s.setKey k p).execState = s.execState := rfl
@[simp] theorem State.setKey_wake (k : KeyIndex) (p : Bool) : (s.setKey k p).wake = s.wake := rfl
@[simp] theorem State.setKey_faultRecord (k : KeyIndex) (p : Bool) : (s.setKey k p).faultRecord = s.faultRecord := rfl
@[simp] theorem State.setKey_loadResponse (k : KeyIndex) (p : Bool) : (s.setKey k p).loadResponse = s.loadResponse := rfl
@[simp] theorem State.setKey_inputs (k : KeyIndex) (p : Bool) : (s.setKey k p).inputs = s.inputs := rfl
@[simp] theorem State.setKey_rnd (k : KeyIndex) (p : Bool) : (s.setKey k p).rnd = s.rnd := rfl
@[simp] theorem State.setKey_draws (k : KeyIndex) (p : Bool) : (s.setKey k p).draws = s.draws := rfl
@[simp] theorem State.setKey_reg (k : KeyIndex) (p : Bool) (r' : Reg) : (s.setKey k p).reg r' = s.reg r' := rfl
@[simp] theorem State.setKey_pixel (k : KeyIndex) (p : Bool) (x' : Fin Config.fbWidth) (y' : Fin Config.fbHeight) :
    (s.setKey k p).pixel x' y' = s.pixel x' y' := rfl

/-! ### setFb -/

@[simp] theorem State.setFb_mem (f : Framebuffer) : (s.setFb f).mem = s.mem := rfl
@[simp] theorem State.setFb_v (f : Framebuffer) : (s.setFb f).v = s.v := rfl
@[simp] theorem State.setFb_i (f : Framebuffer) : (s.setFb f).i = s.i := rfl
@[simp] theorem State.setFb_pc (f : Framebuffer) : (s.setFb f).pc = s.pc := rfl
@[simp] theorem State.setFb_stack (f : Framebuffer) : (s.setFb f).stack = s.stack := rfl
@[simp] theorem State.setFb_dt (f : Framebuffer) : (s.setFb f).dt = s.dt := rfl
@[simp] theorem State.setFb_keys (f : Framebuffer) : (s.setFb f).keys = s.keys := rfl
@[simp] theorem State.setFb_fb (f : Framebuffer) : (s.setFb f).fb = f := rfl
@[simp] theorem State.setFb_execState (f : Framebuffer) : (s.setFb f).execState = s.execState := rfl
@[simp] theorem State.setFb_wake (f : Framebuffer) : (s.setFb f).wake = s.wake := rfl
@[simp] theorem State.setFb_faultRecord (f : Framebuffer) : (s.setFb f).faultRecord = s.faultRecord := rfl
@[simp] theorem State.setFb_loadResponse (f : Framebuffer) : (s.setFb f).loadResponse = s.loadResponse := rfl
@[simp] theorem State.setFb_inputs (f : Framebuffer) : (s.setFb f).inputs = s.inputs := rfl
@[simp] theorem State.setFb_rnd (f : Framebuffer) : (s.setFb f).rnd = s.rnd := rfl
@[simp] theorem State.setFb_draws (f : Framebuffer) : (s.setFb f).draws = s.draws := rfl
@[simp] theorem State.setFb_reg (f : Framebuffer) (r' : Reg) : (s.setFb f).reg r' = s.reg r' := rfl
@[simp] theorem State.setFb_key (f : Framebuffer) (k' : KeyIndex) : (s.setFb f).key k' = s.key k' := rfl
@[simp] theorem State.setFb_pixel (f : Framebuffer) (x : Fin Config.fbWidth) (y : Fin Config.fbHeight) :
    (s.setFb f).pixel x y = f.pixel x y := rfl

/-! ### setExecState -/

@[simp] theorem State.setExecState_mem (e : ExecState) : (s.setExecState e).mem = s.mem := rfl
@[simp] theorem State.setExecState_v (e : ExecState) : (s.setExecState e).v = s.v := rfl
@[simp] theorem State.setExecState_i (e : ExecState) : (s.setExecState e).i = s.i := rfl
@[simp] theorem State.setExecState_pc (e : ExecState) : (s.setExecState e).pc = s.pc := rfl
@[simp] theorem State.setExecState_stack (e : ExecState) : (s.setExecState e).stack = s.stack := rfl
@[simp] theorem State.setExecState_dt (e : ExecState) : (s.setExecState e).dt = s.dt := rfl
@[simp] theorem State.setExecState_keys (e : ExecState) : (s.setExecState e).keys = s.keys := rfl
@[simp] theorem State.setExecState_fb (e : ExecState) : (s.setExecState e).fb = s.fb := rfl
@[simp] theorem State.setExecState_execState (e : ExecState) : (s.setExecState e).execState = e := rfl
@[simp] theorem State.setExecState_wake (e : ExecState) : (s.setExecState e).wake = s.wake := rfl
@[simp] theorem State.setExecState_faultRecord (e : ExecState) : (s.setExecState e).faultRecord = s.faultRecord := rfl
@[simp] theorem State.setExecState_loadResponse (e : ExecState) : (s.setExecState e).loadResponse = s.loadResponse := rfl
@[simp] theorem State.setExecState_inputs (e : ExecState) : (s.setExecState e).inputs = s.inputs := rfl
@[simp] theorem State.setExecState_rnd (e : ExecState) : (s.setExecState e).rnd = s.rnd := rfl
@[simp] theorem State.setExecState_draws (e : ExecState) : (s.setExecState e).draws = s.draws := rfl
@[simp] theorem State.setExecState_reg (e : ExecState) (r' : Reg) : (s.setExecState e).reg r' = s.reg r' := rfl
@[simp] theorem State.setExecState_key (e : ExecState) (k' : KeyIndex) : (s.setExecState e).key k' = s.key k' := rfl
@[simp] theorem State.setExecState_pixel (e : ExecState) (x' : Fin Config.fbWidth) (y' : Fin Config.fbHeight) :
    (s.setExecState e).pixel x' y' = s.pixel x' y' := rfl

/-! ### setWake -/

@[simp] theorem State.setWake_mem (u : Byte) : (s.setWake u).mem = s.mem := rfl
@[simp] theorem State.setWake_v (u : Byte) : (s.setWake u).v = s.v := rfl
@[simp] theorem State.setWake_i (u : Byte) : (s.setWake u).i = s.i := rfl
@[simp] theorem State.setWake_pc (u : Byte) : (s.setWake u).pc = s.pc := rfl
@[simp] theorem State.setWake_stack (u : Byte) : (s.setWake u).stack = s.stack := rfl
@[simp] theorem State.setWake_dt (u : Byte) : (s.setWake u).dt = s.dt := rfl
@[simp] theorem State.setWake_keys (u : Byte) : (s.setWake u).keys = s.keys := rfl
@[simp] theorem State.setWake_fb (u : Byte) : (s.setWake u).fb = s.fb := rfl
@[simp] theorem State.setWake_execState (u : Byte) : (s.setWake u).execState = s.execState := rfl
@[simp] theorem State.setWake_wake (u : Byte) : (s.setWake u).wake = u := rfl
@[simp] theorem State.setWake_faultRecord (u : Byte) : (s.setWake u).faultRecord = s.faultRecord := rfl
@[simp] theorem State.setWake_loadResponse (u : Byte) : (s.setWake u).loadResponse = s.loadResponse := rfl
@[simp] theorem State.setWake_inputs (u : Byte) : (s.setWake u).inputs = s.inputs := rfl
@[simp] theorem State.setWake_rnd (u : Byte) : (s.setWake u).rnd = s.rnd := rfl
@[simp] theorem State.setWake_draws (u : Byte) : (s.setWake u).draws = s.draws := rfl
@[simp] theorem State.setWake_reg (u : Byte) (r' : Reg) : (s.setWake u).reg r' = s.reg r' := rfl
@[simp] theorem State.setWake_key (u : Byte) (k' : KeyIndex) : (s.setWake u).key k' = s.key k' := rfl
@[simp] theorem State.setWake_pixel (u : Byte) (x' : Fin Config.fbWidth) (y' : Fin Config.fbHeight) :
    (s.setWake u).pixel x' y' = s.pixel x' y' := rfl

/-! ### setFaultRecord -/

@[simp] theorem State.setFaultRecord_mem (r : FaultRecord) : (s.setFaultRecord r).mem = s.mem := rfl
@[simp] theorem State.setFaultRecord_v (r : FaultRecord) : (s.setFaultRecord r).v = s.v := rfl
@[simp] theorem State.setFaultRecord_i (r : FaultRecord) : (s.setFaultRecord r).i = s.i := rfl
@[simp] theorem State.setFaultRecord_pc (r : FaultRecord) : (s.setFaultRecord r).pc = s.pc := rfl
@[simp] theorem State.setFaultRecord_stack (r : FaultRecord) : (s.setFaultRecord r).stack = s.stack := rfl
@[simp] theorem State.setFaultRecord_dt (r : FaultRecord) : (s.setFaultRecord r).dt = s.dt := rfl
@[simp] theorem State.setFaultRecord_keys (r : FaultRecord) : (s.setFaultRecord r).keys = s.keys := rfl
@[simp] theorem State.setFaultRecord_fb (r : FaultRecord) : (s.setFaultRecord r).fb = s.fb := rfl
@[simp] theorem State.setFaultRecord_execState (r : FaultRecord) : (s.setFaultRecord r).execState = s.execState := rfl
@[simp] theorem State.setFaultRecord_wake (r : FaultRecord) : (s.setFaultRecord r).wake = s.wake := rfl
@[simp] theorem State.setFaultRecord_faultRecord (r : FaultRecord) : (s.setFaultRecord r).faultRecord = r := rfl
@[simp] theorem State.setFaultRecord_loadResponse (r : FaultRecord) : (s.setFaultRecord r).loadResponse = s.loadResponse := rfl
@[simp] theorem State.setFaultRecord_inputs (r : FaultRecord) : (s.setFaultRecord r).inputs = s.inputs := rfl
@[simp] theorem State.setFaultRecord_rnd (r : FaultRecord) : (s.setFaultRecord r).rnd = s.rnd := rfl
@[simp] theorem State.setFaultRecord_draws (r : FaultRecord) : (s.setFaultRecord r).draws = s.draws := rfl
@[simp] theorem State.setFaultRecord_reg (r : FaultRecord) (r' : Reg) : (s.setFaultRecord r).reg r' = s.reg r' := rfl
@[simp] theorem State.setFaultRecord_key (r : FaultRecord) (k' : KeyIndex) : (s.setFaultRecord r).key k' = s.key k' := rfl
@[simp] theorem State.setFaultRecord_pixel (r : FaultRecord) (x' : Fin Config.fbWidth) (y' : Fin Config.fbHeight) :
    (s.setFaultRecord r).pixel x' y' = s.pixel x' y' := rfl

/-! ### setLoadResponse -/

@[simp] theorem State.setLoadResponse_mem (r : LoadResponse) : (s.setLoadResponse r).mem = s.mem := rfl
@[simp] theorem State.setLoadResponse_v (r : LoadResponse) : (s.setLoadResponse r).v = s.v := rfl
@[simp] theorem State.setLoadResponse_i (r : LoadResponse) : (s.setLoadResponse r).i = s.i := rfl
@[simp] theorem State.setLoadResponse_pc (r : LoadResponse) : (s.setLoadResponse r).pc = s.pc := rfl
@[simp] theorem State.setLoadResponse_stack (r : LoadResponse) : (s.setLoadResponse r).stack = s.stack := rfl
@[simp] theorem State.setLoadResponse_dt (r : LoadResponse) : (s.setLoadResponse r).dt = s.dt := rfl
@[simp] theorem State.setLoadResponse_keys (r : LoadResponse) : (s.setLoadResponse r).keys = s.keys := rfl
@[simp] theorem State.setLoadResponse_fb (r : LoadResponse) : (s.setLoadResponse r).fb = s.fb := rfl
@[simp] theorem State.setLoadResponse_execState (r : LoadResponse) : (s.setLoadResponse r).execState = s.execState := rfl
@[simp] theorem State.setLoadResponse_wake (r : LoadResponse) : (s.setLoadResponse r).wake = s.wake := rfl
@[simp] theorem State.setLoadResponse_faultRecord (r : LoadResponse) : (s.setLoadResponse r).faultRecord = s.faultRecord := rfl
@[simp] theorem State.setLoadResponse_loadResponse (r : LoadResponse) : (s.setLoadResponse r).loadResponse = some r := rfl
@[simp] theorem State.setLoadResponse_inputs (r : LoadResponse) : (s.setLoadResponse r).inputs = s.inputs := rfl
@[simp] theorem State.setLoadResponse_rnd (r : LoadResponse) : (s.setLoadResponse r).rnd = s.rnd := rfl
@[simp] theorem State.setLoadResponse_draws (r : LoadResponse) : (s.setLoadResponse r).draws = s.draws := rfl
@[simp] theorem State.setLoadResponse_reg (r : LoadResponse) (r' : Reg) : (s.setLoadResponse r).reg r' = s.reg r' := rfl
@[simp] theorem State.setLoadResponse_key (r : LoadResponse) (k' : KeyIndex) : (s.setLoadResponse r).key k' = s.key k' := rfl
@[simp] theorem State.setLoadResponse_pixel (r : LoadResponse) (x' : Fin Config.fbWidth) (y' : Fin Config.fbHeight) :
    (s.setLoadResponse r).pixel x' y' = s.pixel x' y' := rfl

/-! ### setInputs -/

@[simp] theorem State.setInputs_mem (l : List Command) : (s.setInputs l).mem = s.mem := rfl
@[simp] theorem State.setInputs_v (l : List Command) : (s.setInputs l).v = s.v := rfl
@[simp] theorem State.setInputs_i (l : List Command) : (s.setInputs l).i = s.i := rfl
@[simp] theorem State.setInputs_pc (l : List Command) : (s.setInputs l).pc = s.pc := rfl
@[simp] theorem State.setInputs_stack (l : List Command) : (s.setInputs l).stack = s.stack := rfl
@[simp] theorem State.setInputs_dt (l : List Command) : (s.setInputs l).dt = s.dt := rfl
@[simp] theorem State.setInputs_keys (l : List Command) : (s.setInputs l).keys = s.keys := rfl
@[simp] theorem State.setInputs_fb (l : List Command) : (s.setInputs l).fb = s.fb := rfl
@[simp] theorem State.setInputs_execState (l : List Command) : (s.setInputs l).execState = s.execState := rfl
@[simp] theorem State.setInputs_wake (l : List Command) : (s.setInputs l).wake = s.wake := rfl
@[simp] theorem State.setInputs_faultRecord (l : List Command) : (s.setInputs l).faultRecord = s.faultRecord := rfl
@[simp] theorem State.setInputs_loadResponse (l : List Command) : (s.setInputs l).loadResponse = s.loadResponse := rfl
@[simp] theorem State.setInputs_inputs (l : List Command) : (s.setInputs l).inputs = l := rfl
@[simp] theorem State.setInputs_rnd (l : List Command) : (s.setInputs l).rnd = s.rnd := rfl
@[simp] theorem State.setInputs_draws (l : List Command) : (s.setInputs l).draws = s.draws := rfl
@[simp] theorem State.setInputs_reg (l : List Command) (r' : Reg) : (s.setInputs l).reg r' = s.reg r' := rfl
@[simp] theorem State.setInputs_key (l : List Command) (k' : KeyIndex) : (s.setInputs l).key k' = s.key k' := rfl
@[simp] theorem State.setInputs_pixel (l : List Command) (x' : Fin Config.fbWidth) (y' : Fin Config.fbHeight) :
    (s.setInputs l).pixel x' y' = s.pixel x' y' := rfl

/-! ### latchRnd -/

@[simp] theorem State.latchRnd_mem (r : Byte) : (s.latchRnd r).mem = s.mem := rfl
@[simp] theorem State.latchRnd_v (r : Byte) : (s.latchRnd r).v = s.v := rfl
@[simp] theorem State.latchRnd_i (r : Byte) : (s.latchRnd r).i = s.i := rfl
@[simp] theorem State.latchRnd_pc (r : Byte) : (s.latchRnd r).pc = s.pc := rfl
@[simp] theorem State.latchRnd_stack (r : Byte) : (s.latchRnd r).stack = s.stack := rfl
@[simp] theorem State.latchRnd_dt (r : Byte) : (s.latchRnd r).dt = s.dt := rfl
@[simp] theorem State.latchRnd_keys (r : Byte) : (s.latchRnd r).keys = s.keys := rfl
@[simp] theorem State.latchRnd_fb (r : Byte) : (s.latchRnd r).fb = s.fb := rfl
@[simp] theorem State.latchRnd_execState (r : Byte) : (s.latchRnd r).execState = s.execState := rfl
@[simp] theorem State.latchRnd_wake (r : Byte) : (s.latchRnd r).wake = s.wake := rfl
@[simp] theorem State.latchRnd_faultRecord (r : Byte) : (s.latchRnd r).faultRecord = s.faultRecord := rfl
@[simp] theorem State.latchRnd_loadResponse (r : Byte) : (s.latchRnd r).loadResponse = s.loadResponse := rfl
@[simp] theorem State.latchRnd_inputs (r : Byte) : (s.latchRnd r).inputs = s.inputs := rfl
@[simp] theorem State.latchRnd_rnd (r : Byte) : (s.latchRnd r).rnd = r := rfl
@[simp] theorem State.latchRnd_draws (r : Byte) : (s.latchRnd r).draws = s.draws + 1 := rfl
@[simp] theorem State.latchRnd_reg (r : Byte) (r' : Reg) : (s.latchRnd r).reg r' = s.reg r' := rfl
@[simp] theorem State.latchRnd_key (r : Byte) (k' : KeyIndex) : (s.latchRnd r).key k' = s.key k' := rfl
@[simp] theorem State.latchRnd_pixel (r : Byte) (x' : Fin Config.fbWidth) (y' : Fin Config.fbHeight) :
    (s.latchRnd r).pixel x' y' = s.pixel x' y' := rfl

/-! ### Derived updates -/

@[simp] theorem State.setFlag_eq (u : Byte) : s.setFlag u = s.setReg vf u := rfl
@[simp] theorem State.advance_eq : s.advance = s.setPc (s.pc + 2) := rfl
@[simp] theorem State.bumpI_eq (x : Reg) : s.bumpI x = s.setI (s.i + BitVec.ofNat 16 (x.val + 1)) := rfl
@[simp] theorem State.skipIf_true : s.skipIf true = s.advance := rfl
@[simp] theorem State.skipIf_false : s.skipIf false = s := rfl
@[simp] theorem State.enterFaulted_eq (k : FatalKind) (w : Option Word) :
    s.enterFaulted k w = (s.setFaultRecord ⟨k, s.pc, w.getD 0, w.isSome⟩).setExecState .faulted := rfl
@[simp] theorem raise_eq (k : FatalKind) (i : Instr) :
    raise k i s = .next ((s.setFaultRecord ⟨k, s.pc, encode i, true⟩).setExecState .faulted) := rfl

/-- A register write changes that register and no other. -/
@[simp] theorem State.setReg_reg (x : Reg) (u : Byte) (y : Reg) :
    (s.setReg x u).reg y = if y = x then u else s.reg y := by
  simp only [State.reg, State.setReg, Vector.get_eq_getElem, Vector.getElem_set, Fin.ext_iff, eq_comm]

/-- A key event changes that key and no other. -/
@[simp] theorem State.setKey_key (k : KeyIndex) (p : Bool) (j : KeyIndex) :
    (s.setKey k p).key j = if j = k then p else s.key j := by
  simp only [State.key, State.setKey, Vector.get_eq_getElem, Vector.getElem_set, Fin.ext_iff, eq_comm]

end Sys2Proof.Machine
end

