-- ==== Sys2Proof/Laws/Ops.lean ====
section
/-! SUPPORT. The laws of the shared operations the meanings are written over: register transfers, accesses at I, the
stack, keys, the fetch; each says once everything the operation can do. -/

namespace Sys2Proof.Machine

variable (s : State)

/-! ### Register transfers -/

theorem State.reg_eq (x : Reg) : s.reg x = s.v[x.val] := rfl

/-- FX65's register writes: the bytes land in V[k], V[k+1], …, and every other register is as before. -/
theorem State.setRegsFrom_reg (k : Nat) (us : List Byte) (y : Reg) :
    (s.setRegsFrom k us).reg y = if k ≤ y.val ∧ y.val < k + us.length then us.getD (y.val - k) 0 else s.reg y := by
  induction us generalizing s k with
  | nil => rw [if_neg (by simp only [List.length_nil]; omega)]; rfl
  | cons u us ih =>
    have hy := y.isLt
    rw [State.setRegsFrom, ih]
    simp only [List.length_cons]
    by_cases h1 : y.val = k
    · rw [if_neg (by omega), if_pos (by omega), dif_pos (by omega), State.setReg_reg, if_pos (Fin.ext h1), h1, Nat.sub_self]
      rfl
    · have hreg : (if h : k < 16 then s.setReg ⟨k, h⟩ u else s).reg y = s.reg y := by
        split
        · rw [State.setReg_reg, if_neg fun e => h1 (congrArg Fin.val e)]
        · rfl
      rw [hreg]
      by_cases h2 : k + 1 ≤ y.val ∧ y.val < k + 1 + us.length
      · rw [if_pos h2, if_pos (by omega), show y.val - k = y.val - (k + 1) + 1 by omega]; rfl
      · rw [if_neg h2, if_neg (by omega)]

@[simp] theorem State.setRegsFrom_mem (k : Nat) (us : List Byte) : (s.setRegsFrom k us).mem = s.mem := by
  induction us generalizing s k with
  | nil => rfl
  | cons u us ih => rw [State.setRegsFrom, ih]; split <;> rfl
@[simp] theorem State.setRegsFrom_i (k : Nat) (us : List Byte) : (s.setRegsFrom k us).i = s.i := by
  induction us generalizing s k with
  | nil => rfl
  | cons u us ih => rw [State.setRegsFrom, ih]; split <;> rfl
@[simp] theorem State.setRegsFrom_pc (k : Nat) (us : List Byte) : (s.setRegsFrom k us).pc = s.pc := by
  induction us generalizing s k with
  | nil => rfl
  | cons u us ih => rw [State.setRegsFrom, ih]; split <;> rfl
@[simp] theorem State.setRegsFrom_stack (k : Nat) (us : List Byte) : (s.setRegsFrom k us).stack = s.stack := by
  induction us generalizing s k with
  | nil => rfl
  | cons u us ih => rw [State.setRegsFrom, ih]; split <;> rfl
@[simp] theorem State.setRegsFrom_dt (k : Nat) (us : List Byte) : (s.setRegsFrom k us).dt = s.dt := by
  induction us generalizing s k with
  | nil => rfl
  | cons u us ih => rw [State.setRegsFrom, ih]; split <;> rfl
@[simp] theorem State.setRegsFrom_keys (k : Nat) (us : List Byte) : (s.setRegsFrom k us).keys = s.keys := by
  induction us generalizing s k with
  | nil => rfl
  | cons u us ih => rw [State.setRegsFrom, ih]; split <;> rfl
@[simp] theorem State.setRegsFrom_fb (k : Nat) (us : List Byte) : (s.setRegsFrom k us).fb = s.fb := by
  induction us generalizing s k with
  | nil => rfl
  | cons u us ih => rw [State.setRegsFrom, ih]; split <;> rfl
@[simp] theorem State.setRegsFrom_execState (k : Nat) (us : List Byte) : (s.setRegsFrom k us).execState = s.execState := by
  induction us generalizing s k with
  | nil => rfl
  | cons u us ih => rw [State.setRegsFrom, ih]; split <;> rfl
@[simp] theorem State.setRegsFrom_wake (k : Nat) (us : List Byte) : (s.setRegsFrom k us).wake = s.wake := by
  induction us generalizing s k with
  | nil => rfl
  | cons u us ih => rw [State.setRegsFrom, ih]; split <;> rfl
@[simp] theorem State.setRegsFrom_faultRecord (k : Nat) (us : List Byte) : (s.setRegsFrom k us).faultRecord = s.faultRecord := by
  induction us generalizing s k with
  | nil => rfl
  | cons u us ih => rw [State.setRegsFrom, ih]; split <;> rfl
@[simp] theorem State.setRegsFrom_loadResponse (k : Nat) (us : List Byte) : (s.setRegsFrom k us).loadResponse = s.loadResponse := by
  induction us generalizing s k with
  | nil => rfl
  | cons u us ih => rw [State.setRegsFrom, ih]; split <;> rfl
@[simp] theorem State.setRegsFrom_inputs (k : Nat) (us : List Byte) : (s.setRegsFrom k us).inputs = s.inputs := by
  induction us generalizing s k with
  | nil => rfl
  | cons u us ih => rw [State.setRegsFrom, ih]; split <;> rfl
@[simp] theorem State.setRegsFrom_rnd (k : Nat) (us : List Byte) : (s.setRegsFrom k us).rnd = s.rnd := by
  induction us generalizing s k with
  | nil => rfl
  | cons u us ih => rw [State.setRegsFrom, ih]; split <;> rfl
@[simp] theorem State.setRegsFrom_draws (k : Nat) (us : List Byte) : (s.setRegsFrom k us).draws = s.draws := by
  induction us generalizing s k with
  | nil => rfl
  | cons u us ih => rw [State.setRegsFrom, ih]; split <;> rfl

@[simp] theorem State.setRegsFrom_key (k : Nat) (us : List Byte) (j : KeyIndex) :
    (s.setRegsFrom k us).key j = s.key j := by
  rw [State.key, State.setRegsFrom_keys]; rfl

@[simp] theorem State.setRegsFrom_pixel (k : Nat) (us : List Byte) (x : Fin Config.fbWidth) (y : Fin Config.fbHeight) :
    (s.setRegsFrom k us).pixel x y = s.pixel x y := by
  rw [State.pixel, State.setRegsFrom_fb]; rfl

@[simp] theorem State.regsUpTo_length (x : Reg) : (s.regsUpTo x).length = x.val + 1 := by
  simp only [State.regsUpTo, List.length_take, Vector.length_toList]; omega

theorem State.regsUpTo_getD (x : Reg) (k : Reg) (h : k ≤ x) : (s.regsUpTo x).getD k.val 0 = s.reg k := by
  have hk := k.isLt
  have h' : k.val < x.val + 1 := Nat.lt_succ_of_le h
  rw [State.regsUpTo, List.getD_eq_getElem?_getD, List.getElem?_take_of_lt h', State.reg_eq]
  simp [hk]

/-! ### Accesses at I -/

/-- A store at I, said once: it succeeds exactly in range, and then only memory changes. -/
theorem State.storeAtI_eq_some {s t : State} {us : List Byte} :
    s.storeAtI us = some t ↔
      (us.length = 0 ∨ s.i.toNat + us.length ≤ 0x1000) ∧ t = s.setMem (s.mem.putBytes s.i.toNat us) := by
  simp only [State.storeAtI, State.dataAddr, Nat.add_zero, Option.map_eq_some_iff, Memory.writeBytes_eq_some]
  constructor
  · rintro ⟨m, ⟨h, rfl⟩, rfl⟩; exact ⟨h, rfl⟩
  · rintro ⟨h, rfl⟩; exact ⟨_, ⟨h, rfl⟩, rfl⟩

theorem State.storeAtI_eq_none {s : State} {us : List Byte} :
    s.storeAtI us = none ↔ us.length ≠ 0 ∧ 0x1000 < s.i.toNat + us.length := by
  simp only [State.storeAtI, State.dataAddr, Nat.add_zero, Option.map_eq_none_iff, Memory.writeBytes_eq_none]

/-- A load at I, said once. -/
theorem State.loadAtI_eq_some {s : State} {n : Nat} {us : List Byte} :
    s.loadAtI n = some us ↔
      (n = 0 ∨ s.i.toNat + n ≤ 0x1000) ∧ us = (List.range n).map fun k => s.mem.get (s.i.toNat + k) := by
  simp only [State.loadAtI, State.dataAddr, Nat.add_zero, Memory.readBytes_eq_some]

theorem State.loadAtI_eq_none {s : State} {n : Nat} :
    s.loadAtI n = none ↔ n ≠ 0 ∧ 0x1000 < s.i.toNat + n := by
  simp only [State.loadAtI, State.dataAddr, Nat.add_zero, Memory.readBytes_eq_none]

@[simp] theorem bcdDigits_length (u : Byte) : (bcdDigits u).length = 3 := rfl

/-! ### Stack and keys -/

theorem State.push_eq_some {s t : State} {a : Word} :
    s.push a = some t ↔ s.stack.length < 16 ∧ t = s.setStack (a :: s.stack) := by
  simp only [State.push, Config.stackDepth]
  split <;> rename_i h <;> simp [h, eq_comm]

theorem State.push_eq_none {s : State} {a : Word} : s.push a = none ↔ 16 ≤ s.stack.length := by
  simp only [State.push, Config.stackDepth]
  split <;> rename_i h <;> simp at h ⊢ <;> omega

theorem State.pop_eq_some {s t : State} {a : Word} :
    s.pop = some (a, t) ↔ ∃ rest, s.stack = a :: rest ∧ t = s.setStack rest := by
  rw [State.pop]
  split <;> rename_i h <;> simp [h, eq_comm]

theorem State.pop_eq_none {s : State} : s.pop = none ↔ s.stack = [] := by
  rw [State.pop]
  split <;> rename_i h <;> simp [h]

theorem State.keyOf_eq_some {s : State} {u : Byte} {p : Bool} :
    s.keyOf u = some p ↔ ∃ h : u.toNat < 16, s.key ⟨u.toNat, h⟩ = p := by
  rw [State.keyOf]
  split <;> rename_i h <;> simp [h]

theorem State.keyOf_eq_none {s : State} {u : Byte} : s.keyOf u = none ↔ 16 ≤ u.toNat := by
  rw [State.keyOf]
  split <;> rename_i h
  · simp; omega
  · simp; omega

/-! ### Fetch -/

/-- The fetch, said once: it succeeds exactly when both bytes exist (30_encoding.md R70). -/
theorem State.fetch_eq_some {s : State} {w : Word} :
    s.fetch = some w ↔
      s.pc.toNat + 1 < 0x1000 ∧ w = wordOfBytes (s.mem.get s.pc.toNat) (s.mem.get (s.pc.toNat + 1)) := by
  by_cases h : s.pc.toNat + 1 < 0x1000
  · simp [State.fetch, Memory.read_lt _ _ h, Memory.read_lt _ _ (Nat.lt_of_succ_lt h), h, eq_comm]
  · simp only [State.fetch, Memory.read_ge _ _ (Nat.not_lt.mp h), h, false_and, iff_false]
    split <;> simp_all

theorem State.fetch_eq_none {s : State} : s.fetch = none ↔ 0x1000 ≤ s.pc.toNat + 1 := by
  by_cases h : s.pc.toNat + 1 < 0x1000
  · simp [State.fetch, Memory.read_lt _ _ h, Memory.read_lt _ _ (Nat.lt_of_succ_lt h)]; omega
  · have h' := Nat.not_lt.mp h
    simp only [State.fetch, Memory.read_ge _ _ h', h', iff_true]
    split <;> simp_all

end Sys2Proof.Machine
end

