-- ==== Sys2Proof/Laws/PerInstr.lean ====
section
/-! SUPPORT. The per-instruction family `Encoding`: each well-formed instruction's word matches its own row of the
opcode table, the mask and match columns of spec/opcode_table.json. -/

namespace Sys2Proof.Laws.Encoding

/-- The row (mask, match) of an instruction in spec/opcode_table.json. -/
def row (i : Instr) : Word × Word :=
  match i with
  | .cls => (0xFFFF, 0x00E0)
  | .ret => (0xFFFF, 0x00EE)
  | .jp _ => (0xF000, 0x1000)
  | .call _ => (0xF000, 0x2000)
  | .seImm _ _ => (0xF000, 0x3000)
  | .sneImm _ _ => (0xF000, 0x4000)
  | .seReg _ _ => (0xF00F, 0x5000)
  | .ldImm _ _ => (0xF000, 0x6000)
  | .addImm _ _ => (0xF000, 0x7000)
  | .ldReg _ _ => (0xF00F, 0x8000)
  | .orReg _ _ => (0xF00F, 0x8001)
  | .andReg _ _ => (0xF00F, 0x8002)
  | .xorReg _ _ => (0xF00F, 0x8003)
  | .addReg _ _ => (0xF00F, 0x8004)
  | .subReg _ _ => (0xF00F, 0x8005)
  | .shrReg _ _ => (0xF00F, 0x8006)
  | .subnReg _ _ => (0xF00F, 0x8007)
  | .shlReg _ _ => (0xF00F, 0x800E)
  | .sneReg _ _ => (0xF00F, 0x9000)
  | .ldI _ => (0xF000, 0xA000)
  | .jpV0 _ => (0xF000, 0xB000)
  | .rnd _ _ => (0xF000, 0xC000)
  | .drw _ _ _ => (0xF000, 0xD000)
  | .skp _ => (0xF0FF, 0xE09E)
  | .sknp _ => (0xF0FF, 0xE0A1)
  | .ldVxDt _ => (0xF0FF, 0xF007)
  | .ldVxK _ => (0xF0FF, 0xF00A)
  | .ldDtVx _ => (0xF0FF, 0xF015)
  | .ldStVx _ => (0xF0FF, 0xF018)
  | .addIVx _ => (0xF0FF, 0xF01E)
  | .ldFVx _ => (0xF0FF, 0xF029)
  | .ldBVx _ => (0xF0FF, 0xF033)
  | .storeRegs _ => (0xF0FF, 0xF055)
  | .loadRegs _ => (0xF0FF, 0xF065)

/-- The word of the instruction matches its row, and the row is one of the table's. -/
def Statement (i : Instr) : Prop :=
  row i ∈ opcodeTable ∧ encode i &&& (row i).1 = (row i).2

/-! ### The three word formats under a mask -/

theorem wordNnn_and (op : BitVec 4) (addr : Addr) : wordNnn op addr &&& 0xF000 = op ++ 0#12 := by
  have h : (0xF000 : Word) = (0xF : BitVec 4) ++ 0#12 := by decide
  have hop : op &&& 0xF = op := BitVec.and_allOnes
  rw [wordNnn, h, BitVec.and_append, hop, BitVec.and_zero]

theorem wordXnn_and (op : BitVec 4) (x : Reg) (nn : Byte) : wordXnn op x nn &&& 0xF000 = op ++ 0#12 :=
  wordNnn_and op (regBits x ++ nn)

theorem wordXyn_and (op : BitVec 4) (x y : Reg) (n : BitVec 4) : wordXyn op x y n &&& 0xF000 = op ++ 0#12 :=
  wordNnn_and op (regBits x ++ (regBits y ++ n))

theorem wordXyn_and_n (op : BitVec 4) (x y : Reg) (n : BitVec 4) :
    wordXyn op x y n &&& 0xF00F = op ++ (0#4 ++ (0#4 ++ n)) := by
  have h : (0xF00F : Word) = (0xF : BitVec 4) ++ (0#4 ++ (0#4 ++ (0xF : BitVec 4))) := by decide
  have hop (b : BitVec 4) : b &&& 0xF = b := BitVec.and_allOnes
  rw [wordXyn, h, BitVec.and_append, BitVec.and_append, BitVec.and_append, hop, hop, BitVec.and_zero, BitVec.and_zero]

theorem wordXnn_and_nn (op : BitVec 4) (x : Reg) (nn : Byte) :
    wordXnn op x nn &&& 0xF0FF = op ++ (0#4 ++ nn) := by
  have h : (0xF0FF : Word) = (0xF : BitVec 4) ++ (0#4 ++ (0xFF : Byte)) := by decide
  have hop : op &&& 0xF = op := BitVec.and_allOnes
  have hnn : nn &&& 0xFF = nn := BitVec.and_allOnes
  rw [wordXnn, h, BitVec.and_append, BitVec.and_append, hop, hnn, BitVec.and_zero]

/-! ### One lemma a constructor -/

theorem cls : Statement .cls := ⟨by simp [row, opcodeTable], by decide⟩
theorem ret : Statement .ret := ⟨by simp [row, opcodeTable], by decide⟩
theorem jp (addr : Addr) : Statement (.jp addr) := ⟨by simp [row, opcodeTable], wordNnn_and _ _⟩
theorem call (addr : Addr) : Statement (.call addr) := ⟨by simp [row, opcodeTable], wordNnn_and _ _⟩
theorem seImm (x : Reg) (nn : Byte) : Statement (.seImm x nn) := ⟨by simp [row, opcodeTable], wordXnn_and _ _ _⟩
theorem sneImm (x : Reg) (nn : Byte) : Statement (.sneImm x nn) := ⟨by simp [row, opcodeTable], wordXnn_and _ _ _⟩
theorem seReg (x : Reg) (y : Reg) : Statement (.seReg x y) := ⟨by simp [row, opcodeTable], wordXyn_and_n _ _ _ _⟩
theorem ldImm (x : Reg) (nn : Byte) : Statement (.ldImm x nn) := ⟨by simp [row, opcodeTable], wordXnn_and _ _ _⟩
theorem addImm (x : Reg) (nn : Byte) : Statement (.addImm x nn) := ⟨by simp [row, opcodeTable], wordXnn_and _ _ _⟩
theorem ldReg (x : Reg) (y : Reg) : Statement (.ldReg x y) := ⟨by simp [row, opcodeTable], wordXyn_and_n _ _ _ _⟩
theorem orReg (x : Reg) (y : Reg) : Statement (.orReg x y) := ⟨by simp [row, opcodeTable], wordXyn_and_n _ _ _ _⟩
theorem andReg (x : Reg) (y : Reg) : Statement (.andReg x y) := ⟨by simp [row, opcodeTable], wordXyn_and_n _ _ _ _⟩
theorem xorReg (x : Reg) (y : Reg) : Statement (.xorReg x y) := ⟨by simp [row, opcodeTable], wordXyn_and_n _ _ _ _⟩
theorem addReg (x : Reg) (y : Reg) : Statement (.addReg x y) := ⟨by simp [row, opcodeTable], wordXyn_and_n _ _ _ _⟩
theorem subReg (x : Reg) (y : Reg) : Statement (.subReg x y) := ⟨by simp [row, opcodeTable], wordXyn_and_n _ _ _ _⟩
theorem shrReg (x : Reg) (y : Reg) : Statement (.shrReg x y) := ⟨by simp [row, opcodeTable], wordXyn_and_n _ _ _ _⟩
theorem subnReg (x : Reg) (y : Reg) : Statement (.subnReg x y) := ⟨by simp [row, opcodeTable], wordXyn_and_n _ _ _ _⟩
theorem shlReg (x : Reg) (y : Reg) : Statement (.shlReg x y) := ⟨by simp [row, opcodeTable], wordXyn_and_n _ _ _ _⟩
theorem sneReg (x : Reg) (y : Reg) : Statement (.sneReg x y) := ⟨by simp [row, opcodeTable], wordXyn_and_n _ _ _ _⟩
theorem ldI (addr : Addr) : Statement (.ldI addr) := ⟨by simp [row, opcodeTable], wordNnn_and _ _⟩
theorem jpV0 (addr : Addr) : Statement (.jpV0 addr) := ⟨by simp [row, opcodeTable], wordNnn_and _ _⟩
theorem rnd (x : Reg) (nn : Byte) : Statement (.rnd x nn) := ⟨by simp [row, opcodeTable], wordXnn_and _ _ _⟩
theorem drw (x : Reg) (y : Reg) (n : Nat) : Statement (.drw x y n) := ⟨by simp [row, opcodeTable], wordXyn_and _ _ _ _⟩
theorem skp (x : Reg) : Statement (.skp x) := ⟨by simp [row, opcodeTable], wordXnn_and_nn _ _ _⟩
theorem sknp (x : Reg) : Statement (.sknp x) := ⟨by simp [row, opcodeTable], wordXnn_and_nn _ _ _⟩
theorem ldVxDt (x : Reg) : Statement (.ldVxDt x) := ⟨by simp [row, opcodeTable], wordXnn_and_nn _ _ _⟩
theorem ldVxK (x : Reg) : Statement (.ldVxK x) := ⟨by simp [row, opcodeTable], wordXnn_and_nn _ _ _⟩
theorem ldDtVx (x : Reg) : Statement (.ldDtVx x) := ⟨by simp [row, opcodeTable], wordXnn_and_nn _ _ _⟩
theorem ldStVx (x : Reg) : Statement (.ldStVx x) := ⟨by simp [row, opcodeTable], wordXnn_and_nn _ _ _⟩
theorem addIVx (x : Reg) : Statement (.addIVx x) := ⟨by simp [row, opcodeTable], wordXnn_and_nn _ _ _⟩
theorem ldFVx (x : Reg) : Statement (.ldFVx x) := ⟨by simp [row, opcodeTable], wordXnn_and_nn _ _ _⟩
theorem ldBVx (x : Reg) : Statement (.ldBVx x) := ⟨by simp [row, opcodeTable], wordXnn_and_nn _ _ _⟩
theorem storeRegs (x : Reg) : Statement (.storeRegs x) := ⟨by simp [row, opcodeTable], wordXnn_and_nn _ _ _⟩
theorem loadRegs (x : Reg) : Statement (.loadRegs x) := ⟨by simp [row, opcodeTable], wordXnn_and_nn _ _ _⟩

end Sys2Proof.Laws.Encoding
end

