-- ==== Sys2Proof/Laws/Step.lean ====
section
/-! SUPPORT. What a step is, case by case, so that no proof unfolds the step function: the command it processes, the
three ways a STEP in Running goes, STEP in the other states, and the inversion of the whole step. -/

namespace Sys2Proof.Machine

variable {s : State} {r : Byte} {rest : List Command}

theorem step_empty (h : s.inputs = []) : step s = stepCommand (Config.rndByte s.draws) s := by
  simp only [step, nextCommand, h]

theorem step_command {c : Command} (h : s.inputs = c :: rest) : step s = runCommand c (s.setInputs rest) := by
  simp only [step, nextCommand, h]

/-- A step whose next command is a STEP. -/
theorem step_stepNext (h : s.StepNext r rest) : step s = stepCommand r (s.setInputs rest) := by
  rcases h with h | ⟨h, rfl, rfl⟩
  · rw [step_command h]; rfl
  · rw [step_empty h]
    congr 1
    cases s; subst h; rfl

/-- In Running a STEP is an instruction cycle on the begun state. -/
theorem step_running (h : s.StepNext r rest) (hr : s.execState = .running) : step s = instructionCycle (s.begun r rest) := by
  rw [step_stepNext h, stepCommand, State.setInputs_execState, hr]; rfl

theorem step_waiting (h : s.StepNext r rest) (hw : s.execState = .waitingForKey) : step s = .next (s.setInputs rest) := by
  rw [step_stepNext h, stepCommand, State.setInputs_execState, hw]

theorem step_faulted (h : s.StepNext r rest) (hf : s.execState = .faulted) : step s = .next (s.setInputs rest) := by
  rw [step_stepNext h, stepCommand, State.setInputs_execState, hf]

/-- The instruction cycle, said once: a fetch fault, an unknown word, or the decoded instruction. -/
theorem instructionCycle_cases (s : State) :
    (s.fetch = none ∧ instructionCycle s = .next (s.enterFaulted .addressOutOfRange none)) ∨
    (∃ w e, s.fetch = some w ∧ decodeWord w = .error e ∧
      instructionCycle s = .next (s.enterFaulted .unknownInstruction (some w))) ∨
    (∃ w i, s.fetch = some w ∧ decodeWord w = .ok i ∧ instructionCycle s = exec i s) := by
  simp only [instructionCycle]
  cases hf : s.fetch with
  | none => exact .inl ⟨rfl, rfl⟩
  | some w =>
    cases hd : decodeWord w with
    | error e => exact .inr (.inl ⟨w, e, rfl, hd, by simp only [hd]⟩)
    | ok i => exact .inr (.inr ⟨w, i, rfl, hd, by simp only [hd]⟩)

/-- The begun state differs from the state before the step in the model's own fields only. -/
@[simp] theorem State.begun_eq (s : State) (r : Byte) (rest : List Command) :
    s.begun r rest = (s.setInputs rest).latchRnd r := rfl

theorem next_inj {a b : State} (h : (Host.Outcome.next a : Result) = .next b) : b = a := by cases h; rfl

/-! ### The inversion of a step -/

/-- Every way a step answers a next state: the three ways of a STEP in Running, a STEP outside Running, and one way for
each other command. -/
inductive StepKind (s t : State) : Prop where
  | fetchFault (r : Byte) (rest : List Command) (stepNext : s.StepNext r rest) (running : s.execState = .running)
      (fetched : s.fetch = none) (result : t = (s.begun r rest).enterFaulted .addressOutOfRange none)
  | unknown (r : Byte) (rest : List Command) (w : Word) (e : DecodeError) (stepNext : s.StepNext r rest)
      (running : s.execState = .running) (fetched : s.fetch = some w) (decoded : decodeWord w = .error e)
      (result : t = (s.begun r rest).enterFaulted .unknownInstruction (some w))
  | runs (r : Byte) (rest : List Command) (w : Word) (i : Instr) (stepNext : s.StepNext r rest)
      (running : s.execState = .running) (fetched : s.fetch = some w) (decoded : decodeWord w = .ok i)
      (result : exec i (s.begun r rest) = .next t)
  | idle (r : Byte) (rest : List Command) (stepNext : s.StepNext r rest) (running : s.execState ≠ .running)
      (result : t = s.setInputs rest)
  | reset (rest : List Command) (next : s.inputs = .reset :: rest) (result : t = resetCommand (s.setInputs rest))
  | load (rom : List Byte) (rest : List Command) (next : s.inputs = .load rom :: rest)
      (result : t = loadCommand rom (s.setInputs rest))
  | tick (rest : List Command) (next : s.inputs = .tick :: rest) (result : t = tickCommand (s.setInputs rest))
  | keyDown (k : KeyIndex) (rest : List Command) (next : s.inputs = .keyDown k :: rest)
      (result : t = keyDownCommand k (s.setInputs rest))
  | keyUp (k : KeyIndex) (rest : List Command) (next : s.inputs = .keyUp k :: rest)
      (result : keyUpCommand k (s.setInputs rest) = .next t)

/-- A STEP in Running goes one of three ways. -/
theorem running_kind {t : State} (hs : s.StepNext r rest) (hr : s.execState = .running) (h : step s = .next t) :
    StepKind s t := by
  rw [step_running hs hr] at h
  rcases instructionCycle_cases (s.begun r rest) with ⟨hf, hx⟩ | ⟨w, e, hf, hd, hx⟩ | ⟨w, i, hf, hd, hx⟩
  · exact .fetchFault r rest hs hr hf (next_inj (hx.symm.trans h))
  · exact .unknown r rest w e hs hr hf hd (next_inj (hx.symm.trans h))
  · exact .runs r rest w i hs hr hf hd (hx.symm.trans h)

/-- A STEP, in every execution state. -/
theorem stepNext_kind {t : State} (hs : s.StepNext r rest) (h : step s = .next t) : StepKind s t := by
  cases he : s.execState with
  | running => exact running_kind hs he h
  | waitingForKey => exact .idle r rest hs (by rw [he]; decide) (next_inj ((step_waiting hs he).symm.trans h))
  | faulted => exact .idle r rest hs (by rw [he]; decide) (next_inj ((step_faulted hs he).symm.trans h))

/-- What a step can do, said once. -/
theorem step_kind {t : State} (h : step s = .next t) : StepKind s t := by
  cases hin : s.inputs with
  | nil => exact stepNext_kind (.inr ⟨hin, rfl, rfl⟩) h
  | cons c rest =>
    have hc := (step_command hin).symm.trans h
    cases c with
    | step r => exact stepNext_kind (.inl hin) h
    | reset => exact .reset rest hin (next_inj hc)
    | load rom => exact .load rom rest hin (next_inj hc)
    | tick => exact .tick rest hin (next_inj hc)
    | keyDown k => exact .keyDown k rest hin (next_inj hc)
    | keyUp k => exact .keyUp k rest hin hc

/-! ### The commands, case by case -/

theorem loadCommand_cases (rom : List Byte) (s : State) :
    (s.execState = .faulted ∧ loadCommand rom s = s) ∨
    (s.execState ≠ .faulted ∧ rom.length ≤ 3584 ∧
      loadCommand rom s = (s.setMem (s.mem.putBytes 0x200 rom)).setLoadResponse .loadOk) ∨
    (s.execState ≠ .faulted ∧ 3584 < rom.length ∧ loadCommand rom s = s.setLoadResponse .loadRejected) := by
  by_cases hl : rom.length ≤ Config.romMax
  · cases he : s.execState <;> simp [loadCommand, he, hl]
  · cases he : s.execState <;> simp [loadCommand, he, hl, Nat.lt_of_not_le hl]

theorem tickCommand_cases (s : State) :
    ((s.execState = .faulted ∨ s.dt.toNat = 0) ∧ tickCommand s = s) ∨
    (s.execState ≠ .faulted ∧ 0 < s.dt.toNat ∧ tickCommand s = s.setDt (s.dt - 1)) := by
  by_cases hd : 0 < s.dt.toNat
  · cases he : s.execState <;> simp [tickCommand, he, hd]
  · have h0 : s.dt.toNat = 0 := Nat.eq_zero_of_not_pos hd
    cases he : s.execState <;> simp [tickCommand, he, h0]

theorem keyDownCommand_cases (k : KeyIndex) (s : State) :
    (s.execState = .faulted ∧ keyDownCommand k s = s) ∨
    (s.execState ≠ .faulted ∧ keyDownCommand k s = s.setKey k true) := by
  cases he : s.execState <;> simp [keyDownCommand, he]

theorem keyUpCommand_cases {k : KeyIndex} {t : State} (h : keyUpCommand k s = .next t) :
    (s.execState = .faulted ∧ t = s) ∨ (s.execState = .running ∧ t = s.setKey k false) ∨
    (s.execState = .waitingForKey ∧ ∃ x : Reg, s.wake.toNat = x.val ∧
      t = ((s.setKey k false).setReg x (zextNibble k)).setExecState .running) := by
  cases he : s.execState <;> simp only [keyUpCommand, he] at h
  · exact .inr (.inl ⟨rfl, next_inj h⟩)
  · split at h
    · exact .inr (.inr ⟨rfl, _, rfl, next_inj h⟩)
    · cases h
  · exact .inl ⟨rfl, next_inj h⟩

end Sys2Proof.Machine
end

