-- ==== Sys2Proof/Tests/Slice0.lean ====
section
/-! SUPPORT. The model's own tests: the WellFormed smoke test, the words of 30_encoding.md decoded, small one-step tests
whose expected values are those of 95_test_vectors.md (the vector's id stands in each comment), and a witness for the
hypotheses of each statement that has some. -/

namespace Sys2Proof.Tests

open Sys2Proof Sys2Proof.Machine

/-! ### Helpers -/

/-- The next state, if there is one. -/
def nextOf (r : Result) : Option State :=
  match r with
  | .next t => some t
  | .fault _ => none
  | .refused _ => none

/-- The state after one step. -/
def after (s : State) : Option State := nextOf (step s)

/-- The next command is STEP(0xAB), Running, and the word stands at pc. -/
def ready (w : Word) (s : State) : State := (placeWord s w).setInputs [.step 0xAB]

/-- Reset, with V0, V1 and VF set. -/
def withV (v0 v1 f : Byte) : State := ((State.reset.setReg 0 v0).setReg 1 v1).setReg vf f

/-- V0, V1 and VF after a step of the word. -/
def v01F (w : Word) (s : State) : Option (Byte × Byte × Byte) :=
  (after (ready w s)).map fun t => (t.reg 0, t.reg 1, t.reg vf)

/-- pc after a step of the word. -/
def pcAfter (w : Word) (s : State) : Option Word := (after (ready w s)).map State.pc

/-- The fault record, EXEC and pc after a step of the word. -/
def faultAfter (w : Word) (s : State) : Option (FaultRecord × ExecState × Word) :=
  (after (ready w s)).map fun t => (t.faultRecord, t.execState, t.pc)

/-- What `faultAfter` gives for a fatal error of the instruction at 0x200. -/
def faultAt200 (k : FatalKind) (w : Word) : Option (FaultRecord × ExecState × Word) :=
  some (⟨k, 0x200, w, true⟩, .faulted, 0x200)

/-- The three bytes at an address after a step of the word. -/
def bytesAfter (w : Word) (s : State) (a : Nat) : Option (List (Option Byte)) :=
  (after (ready w s)).map fun t => [t.mem.read a, t.mem.read (a + 1), t.mem.read (a + 2)]

/-- Reset, with I set and bytes stored at I. -/
def withMemAtI (a : Word) (us : List Byte) : State := (State.reset.setI a).setMem (State.reset.mem.putBytes a.toNat us)

/-- The pixels (0,0), (7,0), (8,0) and VF after a step of the word. -/
def topRow (w : Word) (s : State) : Option (Bool × Bool × Bool × Byte) :=
  (after (ready w s)).map fun t => (t.pixel 0 0, t.pixel 7 0, t.pixel 8 0, t.reg vf)

/-! ### WellFormed -/

/-- DXYN's count has 4 bits: 16 rows are no instruction, 15 are. -/
theorem test_wf_drw_count : (Instr.drw 0 0 16).wf = false ∧ (Instr.drw 0 0 15).wf = true := by decide

/-! ### Decoding: every row's word, written out from its encoding in 30_encoding.md (fields all different) -/

theorem test_decode_control :
    [0x00E0, 0x00EE, 0x1ABC, 0x2ABC, 0x3ABC, 0x4ABC, 0x5AB0, 0x9AB0, 0xBABC].map (decodeTableWord 16) =
      [some .cls, some .ret, some (.jp 0xABC), some (.call 0xABC), some (.seImm 0xA 0xBC), some (.sneImm 0xA 0xBC),
       some (.seReg 0xA 0xB), some (.sneReg 0xA 0xB), some (.jpV0 0xABC)] := by decide

theorem test_decode_alu :
    [0x6ABC, 0x7ABC, 0x8AB0, 0x8AB1, 0x8AB2, 0x8AB3, 0x8AB4].map (decodeTableWord 16) =
      [some (.ldImm 0xA 0xBC), some (.addImm 0xA 0xBC), some (.ldReg 0xA 0xB), some (.orReg 0xA 0xB),
       some (.andReg 0xA 0xB), some (.xorReg 0xA 0xB), some (.addReg 0xA 0xB)] ∧
    [0x8AB5, 0x8AB6, 0x8AB7, 0x8ABE, 0xCABC].map (decodeTableWord 16) =
      [some (.subReg 0xA 0xB), some (.shrReg 0xA 0xB), some (.subnReg 0xA 0xB), some (.shlReg 0xA 0xB),
       some (.rnd 0xA 0xBC)] := by decide

theorem test_decode_index_display :
    [0xAABC, 0xDABC, 0xFA1E, 0xFA29, 0xFA33, 0xFA55, 0xFA65].map (decodeTableWord 16) =
      [some (.ldI 0xABC), some (.drw 0xA 0xB 0xC), some (.addIVx 0xA), some (.ldFVx 0xA), some (.ldBVx 0xA),
       some (.storeRegs 0xA), some (.loadRegs 0xA)] := by decide

theorem test_decode_keypad_timer :
    [0xEA9E, 0xEAA1, 0xFA07, 0xFA0A, 0xFA15, 0xFA18].map (decodeTableWord 16) =
      [some (.skp 0xA), some (.sknp 0xA), some (.ldVxDt 0xA), some (.ldVxK 0xA), some (.ldDtVx 0xA),
       some (.ldStVx 0xA)] := by decide

/-- F1 to F13 of L2: words no row matches. -/
theorem test_decode_unknown :
    [0x0000, 0x0123, 0x01E0, 0x00E1, 0x5121, 0x9AB1, 0x8008, 0x800F, 0xE000, 0xE09F, 0xF000, 0xF01F, 0xF0FF].map
      (decodeTableWord 16) = List.replicate 13 none := by decide

/-- One byte is no instruction, and the bytes after the first two are left (30_encoding.md R60). -/
theorem test_decode_bytes :
    decode [0x12] = .error .truncated ∧ decode [0x12, 0x34, 0x56] = .ok (.jp 0x234, [0x56]) := ⟨rfl, rfl⟩

/-- The bytes of 2300 and of D125 (30_encoding.md R60, R61). -/
theorem test_encode_bytes : encodeBytes (.call 0x300) = [0x23, 0x00] ∧ encodeBytes (.drw 1 2 5) = [0xD1, 0x25] := by
  decide

/-! ### ALU (L2-B) -/

/-- B1, B2 -/
theorem test_ldImm : (after (ready 0x6A05 State.reset)).map (fun t => (t.reg 0xA, t.pc)) = some (0x05, 0x202) ∧
    v01F 0x6F77 State.reset = some (0, 0, 0x77) := by decide
/-- B3 with V0 for V2, B4: a wrap writes no flag -/
theorem test_addImm : v01F 0x7002 (withV 0xFF 0 5) = some (0x01, 0, 5) ∧ v01F 0x7F01 (withV 0 0 0x10) = some (0, 0, 0x11) := by
  decide
/-- B5 -/
theorem test_ldReg : v01F 0x8010 (withV 0 0x7E 1) = some (0x7E, 0x7E, 1) := by decide
/-- B6, B10 -/
theorem test_orReg : v01F 0x8011 (withV 0xF0 0x0F 1) = some (0xFF, 0x0F, 0) ∧ v01F 0x8F11 (withV 0 0xF0 0x0F) = some (0, 0xF0, 0) := by
  decide
/-- B7 -/
theorem test_andReg : v01F 0x8012 (withV 0xF0 0x3C 1) = some (0x30, 0x3C, 0) := by decide
/-- B8, B9 -/
theorem test_xorReg : v01F 0x8013 (withV 0xFF 0x0F 1) = some (0xF0, 0x0F, 0) ∧ v01F 0x8003 (withV 0x5A 0 1) = some (0, 0, 0) := by
  decide
/-- B11, B13 -/
theorem test_addReg_carry : v01F 0x8014 (withV 0xFF 1 0) = some (0, 1, 1) ∧ v01F 0x8014 (withV 0x7F 0x80 1) = some (0xFF, 0x80, 0) := by
  decide
/-- B16, B17: the carry stays in VF, and VF as VY is read before it is written -/
theorem test_addReg_vf : v01F 0x8F14 (withV 0 0xF5 0x10) = some (0, 0xF5, 1) ∧ v01F 0x81F4 (withV 0 0x20 0xF0) = some (0, 0x10, 1) := by
  decide
/-- B18, B19 -/
theorem test_subReg_borrow : v01F 0x8015 (withV 5 3 0) = some (2, 3, 1) ∧ v01F 0x8015 (withV 3 5 1) = some (0xFE, 5, 0) := by decide
/-- B20, B22 -/
theorem test_subReg_equal : v01F 0x8015 (withV 5 5 0) = some (0, 5, 1) ∧ v01F 0x8F15 (withV 0 0x20 0x10) = some (0, 0x20, 0) := by decide
/-- B23, B24 -/
theorem test_subnReg : v01F 0x8017 (withV 3 5 0) = some (2, 5, 1) ∧ v01F 0x8017 (withV 5 3 1) = some (0xFE, 3, 0) := by decide
/-- B26, B28: VY is shifted, and with X = F the shifted value stays -/
theorem test_shrReg : v01F 0x8016 (withV 0xAA 5 0) = some (2, 5, 1) ∧ v01F 0x8F16 (withV 0 6 9) = some (0, 6, 3) := by decide
/-- B31, B33 -/
theorem test_shlReg : v01F 0x801E (withV 0 0x81 0) = some (2, 0x81, 1) ∧ v01F 0x8F1E (withV 0 0xC0 9) = some (0, 0xC0, 0x80) := by decide
/-- B35, B36: rnd = AB -/
theorem test_rnd : v01F 0xC00F State.reset = some (0x0B, 0, 0) ∧ v01F 0xC000 (withV 9 0 0) = some (0, 0, 0) := by decide

/-! ### Control flow (L2-A) -/

/-- A1, A2 -/
theorem test_jp : pcAfter 0x1234 State.reset = some 0x234 ∧ pcAfter 0x1200 State.reset = some 0x200 := by decide
/-- A3, A4: the pushed address of a call at 0xFFE is 0x1000 -/
theorem test_call : (after (ready 0x2300 (State.reset.setPc 0x204))).map (fun t => (t.stack, t.pc)) = some ([0x206], 0x300) ∧
    (after (ready 0x2300 (State.reset.setPc 0xFFE))).map (fun t => (t.stack, t.pc)) = some ([0x1000], 0x300) := by decide
/-- A5 -/
theorem test_call_full : faultAfter 0x2300 (State.reset.setStack (List.replicate 16 0x202)) = faultAt200 .stackOverflow 0x2300 := by
  decide
/-- A6, L1-09 -/
theorem test_ret : faultAfter 0x00EE State.reset = faultAt200 .stackUnderflow 0x00EE ∧
    (after (ready 0x00EE (State.reset.setStack [0x206, 0x999]))).map (fun t => (t.stack, t.pc)) = some ([0x999], 0x206) := by decide
/-- A8, A9 with V0 -/
theorem test_seImm : pcAfter 0x3012 (withV 0x12 0 0) = some 0x204 ∧ pcAfter 0x3012 (withV 0x13 0 0) = some 0x202 := by decide
/-- A10, A11 with V0 -/
theorem test_sneImm : pcAfter 0x4012 (withV 0x12 0 0) = some 0x202 ∧ pcAfter 0x4012 State.reset = some 0x204 := by decide
/-- A12, A13 with V0, V1 -/
theorem test_seReg : pcAfter 0x5010 (withV 0x40 0x40 0) = some 0x204 ∧ pcAfter 0x5010 (withV 0x40 0x41 0) = some 0x202 := by decide
/-- A15, A16 -/
theorem test_sneReg : pcAfter 0x9010 (withV 0x40 0x41 0) = some 0x204 ∧ pcAfter 0x9110 (withV 0x40 0x41 0) = some 0x202 := by decide
/-- A17, A18 -/
theorem test_jpV0 : pcAfter 0xB300 (withV 0x10 0 0) = some 0x310 ∧ pcAfter 0xBFFF (withV 0xFF 0 0) = some 0x10FE := by decide

/-! ### Address register and memory (L2-C) -/

/-- C1 -/
theorem test_ldI : (after (ready 0xA300 State.reset)).map State.i = some 0x300 := by decide
/-- C2, C4 with V0: past 0xFFF without a fault, and I_OVERFLOW -/
theorem test_addIVx : (after (ready 0xF01E ((withV 1 0 7).setI 0xFFF))).map (fun t => (t.i, t.reg vf)) = some (0x1000, 7) ∧
    faultAfter 0xF01E ((withV 1 0 0).setI 0xFFFF) = faultAt200 .iOverflow 0xF01E := by decide
/-- C5, C9 with V0: no masking -/
theorem test_ldFVx : (after (ready 0xF029 (withV 0x0A 0 0))).map State.i = some 0x32 ∧
    (after (ready 0xF029 (withV 0xFF 0 0))).map State.i = some 0x4FB := by decide
/-- L1-05, C13: the digits of 157, and the last address that fits -/
theorem test_ldBVx : bytesAfter 0xF033 ((withV 0x9D 0 0).setI 0x300) 0x300 = some [some 1, some 5, some 7] ∧
    bytesAfter 0xF033 ((withV 9 0 0).setI 0xFFD) 0xFFD = some [some 0, some 0, some 9] := by decide
/-- C14 -/
theorem test_ldBVx_out : faultAfter 0xF033 ((withV 0xFF 0 0).setI 0xFFE) = faultAt200 .addressOutOfRange 0xF033 ∧
    bytesAfter 0xF033 ((withV 0xFF 0 0).setI 0xFFE) 0xFFE = some [some 0, some 0, none] := by decide
/-- C15 with V0 and V1, C18 -/
theorem test_storeRegs : bytesAfter 0xF155 ((withV 0x11 0x22 0).setI 0x300) 0x300 = some [some 0x11, some 0x22, some 0] ∧
    (after (ready 0xF155 ((withV 0xAA 0xBB 0).setI 0xFFE))).map (fun t => (t.i, t.mem.read 0xFFF)) = some (0x1000, some 0xBB) := by
  decide
/-- C19: nothing is written -/
theorem test_storeRegs_out : faultAfter 0xF155 ((withV 0xAA 0xBB 0).setI 0xFFF) = faultAt200 .addressOutOfRange 0xF155 ∧
    bytesAfter 0xF155 ((withV 0xAA 0xBB 0).setI 0xFFF) 0xFFE = some [some 0, some 0, none] := by decide
/-- C20 with V0 and V1, C23 -/
theorem test_loadRegs : (after (ready 0xF165 (withMemAtI 0x300 [1, 5, 7]))).map (fun t => (t.reg 0, t.reg 1, t.reg 2, t.i)) =
      some (1, 5, 0, 0x302) ∧
    faultAfter 0xF065 (State.reset.setI 0x1000) = faultAt200 .addressOutOfRange 0xF065 := by decide
/-- C21: VF is an ordinary destination -/
theorem test_loadRegs_all : (after (ready 0xFF65 (withMemAtI 0x300 ((List.range 16).map fun k => BitVec.ofNat 8 (0x10 + k))))).map
    (fun t => (t.reg 0, t.reg vf, t.i)) = some (0x10, 0x1F, 0x310) := by decide

/-! ### Display (L2-D) -/

/-- D1: VF stays -/
theorem test_cls : topRow 0x00E0 ((withV 0 0 7).setFb (Vector.replicate 32 0xFF)) = some (false, false, false, 7) := by decide
/-- L1-06 as corrected by 90_conflicts.md C1, D10 -/
theorem test_drw_first : topRow 0xD011 (withMemAtI 0x300 [0xFF]) = some (true, true, false, 1) ∧
    faultAfter 0xD012 (State.reset.setI 0xFFF) = faultAt200 .addressOutOfRange 0xD012 := by decide
/-- D6: row 31 wraps to row 0 and columns 60 to 63 to 0 to 3 -/
theorem test_drw_wrap : (after (ready 0xD012 (((withMemAtI 0x210 [0xFF, 0x81]).setReg 0 0x3C).setReg 1 0x1F))).map
      (fun t => (t.pixel 60 31, t.pixel 3 31, t.pixel 4 31, t.pixel 60 0, t.pixel 61 0, t.pixel 3 0)) =
    some (true, true, false, true, false, true) := by decide +kernel

/-! ### Keypad and timer (L2-E) -/

/-- E1, E5 with V0 -/
theorem test_skp : pcAfter 0xE09E ((withV 0x0A 0 0).setKey 0xA true) = some 0x204 ∧
    faultAfter 0xE09E (withV 0x10 0 0) = faultAt200 .keyIndexOutOfRange 0xE09E := by decide
/-- E3, E4 with V0 -/
theorem test_sknp : pcAfter 0xE0A1 (withV 0x0A 0 0) = some 0x204 ∧
    pcAfter 0xE0A1 ((withV 0x0A 0 0).setKey 0xA true) = some 0x202 := by decide
/-- E7 with V0 -/
theorem test_ldVxDt : (after (ready 0xF007 (State.reset.setDt 0x3C))).map (fun t => (t.reg 0, t.dt)) = some (0x3C, 0x3C) := by decide
/-- E8 -/
theorem test_ldDtVx : (after (ready 0xF015 (withV 5 0 0))).map (fun t => (t.reg 0, t.dt)) = some (5, 5) := by decide
/-- E9 -/
theorem test_ldStVx : (after (ready 0xF318 State.reset)).map (fun t => (t.dt, t.pc)) = some (0, 0x202) := by decide
/-- L1-08: the wait starts, then KEY_UP(7) ends it -/
theorem test_ldVxK : (after (ready 0xF30A (State.reset.setPc 0x204))).map (fun t => (t.wake, t.execState, t.pc)) =
      some (3, .waitingForKey, 0x206) ∧
    (after (((State.reset.setWake 3).setExecState .waitingForKey).setInputs [.keyUp 7])).map
      (fun t => (t.reg 3, t.execState)) = some (7, .running) := by decide

/-! ### Fetch and commands (L2-F, L2-G) -/

/-- F1, F15 -/
theorem test_fetch_faults : faultAfter 0x0000 State.reset = faultAt200 .unknownInstruction 0 ∧
    (after (State.reset.setPc 0xFFF)).map State.faultRecord = some ⟨.addressOutOfRange, 0xFFF, 0, false⟩ := by decide
/-- F14, F16: the last word of memory, and a word at an odd address -/
theorem test_fetch_places : pcAfter 0x1200 (State.reset.setPc 0xFFE) = some 0x200 ∧ pcAfter 0x607F (State.reset.setPc 0x201) = some 0x203 := by
  decide
/-- E10 -/
theorem test_tick : [2, 1, 0].map (fun d => (after ((State.reset.setDt d).setInputs [.tick])).map State.dt) =
    [some 1, some 0, some 0] := by decide
/-- E13 -/
theorem test_keyDown_waiting :
    (after (((State.reset.setWake 2).setExecState .waitingForKey).setInputs [.keyDown 9])).map
      (fun t => (t.key 9, t.execState, t.reg 2)) = some (true, .waitingForKey, 0) := by decide
/-- 60_exceptions.md R164, on two bytes -/
theorem test_load : (after (State.reset.setInputs [.load [0x12, 0x34]])).map
    (fun t => (t.mem.read 0x200, t.mem.read 0x201, t.mem.read 0x202, t.loadResponse)) =
      some (some 0x12, some 0x34, some 0, some .loadOk) := by decide
/-- G5 -/
theorem test_reset : (after (((withV 1 2 3).enterFaulted .iOverflow (some 0xF01E)).setInputs [.reset])).map
    (fun t => (t.execState, t.reg 0, t.faultRecord)) = some (.running, 0, ⟨.none, 0, 0, false⟩) := by decide
/-- The model's own stop: KEY_UP with WAKE above 15 (log 6). -/
theorem test_wake_names_no_register :
    after (((State.reset.setWake 16).setExecState .waitingForKey).setInputs [.keyUp 7]) = none := by decide
/-- L1-10: the glyph A, the font's last byte, and zero after it -/
theorem test_font : State.reset.mem.readBytes 0x32 5 = some [0xF0, 0x90, 0xF0, 0x90, 0x90] ∧
    State.reset.mem.readBytes 0x4F 2 = some [0x80, 0x00] := ⟨rfl, rfl⟩
/-- Storing the reset contents again unlists the byte: the canonical form (log 10). -/
theorem test_memory_canonical : Memory.putBytes [] 0x300 [7] = [(0x300, 7)] ∧ Memory.put [(0x300, 7)] 0x300 0 = [] ∧
    Memory.put [] 0 0xF0 = [] := by decide

/-! ### Witnesses: for each statement with hypotheses, values that meet them all, one for each clause, at boundaries -/

/-- A state in which the next command is a STEP in Running and the word stands at pc executes the word's instruction. -/
theorem ready_executes (w : Word) (s : State) (i : Instr) (hf : (ready w s).fetch = some w) (hd : decodeWord w = .ok i) :
    (ready w s).Executes i := ⟨⟨0xAB, [], .inl rfl⟩, rfl, w, hf, hd⟩

/-- A core waiting for a key for V3, with the given commands. -/
def waitingFor (l : List Command) : State := ((State.reset.setWake 3).setExecState .waitingForKey).setInputs l

/-- A core that has faulted, with the given commands. -/
def faultedWith (l : List Command) : State := (State.reset.enterFaulted .unknownInstruction (some 0)).setInputs l

/-- Reset with a picture: every pixel of columns 0 to 7 on. -/
def painted : State := State.reset.setFb (Vector.replicate 32 0xFF)

theorem witness_DecodeOfEncodeIsTheInstruction : (Instr.drw 0xF 0xF 15).wf = true ∧ (Instr.drw 0 0 0).wf = true := by decide

theorem witness_DecodedWordEncodesBack : decodeWord 0xDFFF = .ok (.drw 0xF 0xF 15) := rfl

theorem witness_UnknownWordsMatchNoTableRow : decodeWord 0x8008 = .error (.unknownInstruction 0x8008) := rfl

theorem witness_FetchIsBigEndian :
    (ready 0x1200 (State.reset.setPc 0xFFE)).mem.read 0xFFE = some 0x12 ∧
    (ready 0x1200 (State.reset.setPc 0xFFE)).mem.read (0xFFE + 1) = some 0x00 := by decide

theorem witness_StepRunsTheDecodedInstruction :
    (ready 0x1200 (State.reset.setPc 0xFFE)).StepNext 0xAB [] ∧
    (ready 0x1200 (State.reset.setPc 0xFFE)).execState = .running ∧
    (ready 0x1200 (State.reset.setPc 0xFFE)).mem.read 0xFFE = some 0x12 ∧
    (ready 0x1200 (State.reset.setPc 0xFFE)).mem.read (0xFFE + 1) = some 0x00 ∧
    decodeWord ((0x12 : Byte) ++ (0x00 : Byte)) = .ok (.jp 0x200) := ⟨.inl rfl, rfl, rfl, rfl, rfl⟩

theorem witness_StepOutsideRunningChangesNothing :
    ((waitingFor [.step 1]).StepNext 1 [] ∧ (waitingFor [.step 1]).execState ≠ .running) ∧
    ((faultedWith []).StepNext (Config.rndByte 0) [] ∧ (faultedWith []).execState ≠ .running) :=
  ⟨⟨.inl rfl, by decide⟩, .inr ⟨rfl, rfl, rfl⟩, by decide⟩

/-- The next command is a STEP in Running; the fetch faults from 0xFFF on, decode next, the own check last, or none. -/
theorem witness_FatalErrorsArePrecise :
    ((State.reset.setPc 0xFFF).StepNext (Config.rndByte 0) [] ∧ fatalOf (State.reset.setPc 0xFFF) = some .addressOutOfRange) ∧
    ((ready 0x8008 State.reset).StepNext 0xAB [] ∧ fatalOf (ready 0x8008 State.reset) = some .unknownInstruction) ∧
    ((ready 0x00EE State.reset).StepNext 0xAB [] ∧ fatalOf (ready 0x00EE State.reset) = some .stackUnderflow) ∧
    ((ready 0x1200 (State.reset.setPc 0xFFE)).StepNext 0xAB [] ∧ fatalOf (ready 0x1200 (State.reset.setPc 0xFFE)) = none) :=
  ⟨⟨.inr ⟨rfl, rfl, rfl⟩, by decide⟩, ⟨.inl rfl, by decide⟩, ⟨.inl rfl, by decide⟩, .inl rfl, by decide⟩

/-- The first operands at which each own check raises. -/
theorem witness_OwnCheckRaisesItsKind :
    ownCheck .ret State.reset = some .stackUnderflow ∧
    ownCheck (.call 0) (State.reset.setStack (List.replicate 16 0)) = some .stackOverflow ∧
    ownCheck (.skp 0) (withV 16 0 0) = some .keyIndexOutOfRange ∧ ownCheck (.sknp 0) (withV 16 0 0) = some .keyIndexOutOfRange ∧
    ownCheck (.addIVx 0) ((withV 1 0 0).setI 0xFFFF) = some .iOverflow ∧
    ownCheck (.ldBVx 0) (State.reset.setI 0xFFE) = some .addressOutOfRange ∧
    ownCheck (.storeRegs 15) (State.reset.setI 0xFF1) = some .addressOutOfRange ∧
    ownCheck (.loadRegs 15) (State.reset.setI 0xFF1) = some .addressOutOfRange ∧
    ownCheck (.drw 0 0 1) (State.reset.setI 0x1000) = some .addressOutOfRange := by decide

/-- The last operands at which each own check passes. -/
theorem witness_EveryInstructionCompletesWithinItsFrame :
    ownCheck .ret (State.reset.setStack [0]) = none ∧ ownCheck (.call 0) (State.reset.setStack (List.replicate 15 0)) = none ∧
    ownCheck (.skp 0) (withV 15 0 0) = none ∧ ownCheck (.sknp 0) (withV 15 0 0) = none ∧
    ownCheck (.addIVx 0) ((withV 0xFF 0 0).setI 0xFF00) = none ∧ ownCheck (.ldBVx 0) (State.reset.setI 0xFFD) = none ∧
    ownCheck (.storeRegs 15) (State.reset.setI 0xFF0) = none ∧ ownCheck (.loadRegs 15) (State.reset.setI 0xFF0) = none ∧
    ownCheck (.drw 0 0 1) (State.reset.setI 0xFFF) = none ∧ ownCheck (.drw 0 0 0) (State.reset.setI 0xFFFF) = none ∧
    ownCheck .cls State.reset = none := by decide

/-- A state other than reset that meets the invariant: waiting for a key, with a full stack and pc at its bound. -/
theorem waiting_inv (l : List Command) :
    (((waitingFor l).setStack (List.replicate 16 0x1000)).setPc 0x10FE).Inv where
  memWf := rfl
  stackDepth := by simp
  stackEntries := by simp
  pcBound := by simp
  wakeBound := by simp [waitingFor]
  faultClear := fun _ => rfl
  faultNamed := fun h => by simp [waitingFor] at h
  faultFetched := fun h => by simp [waitingFor] at h
  faultUnfetched := fun h => by simp [waitingFor] at h

theorem witness_EveryStepKeepsTheInvariant :
    (((waitingFor [.keyUp 7]).setStack (List.replicate 16 0x1000)).setPc 0x10FE).Inv ∧
    ∃ t, step (((waitingFor [.keyUp 7]).setStack (List.replicate 16 0x1000)).setPc 0x10FE) = .next t :=
  ⟨waiting_inv _, _, rfl⟩

theorem witness_InvariantStatesAlwaysStep :
    (((waitingFor []).setStack (List.replicate 16 0x1000)).setPc 0x10FE).Inv := waiting_inv _

theorem witness_CanonicalMemoriesWithEqualReadsAreEqual :
    Memory.wf [(0, 0), (0xFFF, 1)] = true ∧ Memory.wf (Memory.put [(0xFFF, 1)] 0 0) = true ∧
    ∀ a, Memory.read [(0, 0), (0xFFF, 1)] a = Memory.read (Memory.put [(0xFFF, 1)] 0 0) a :=
  ⟨by decide, by decide, fun _ => rfl⟩

theorem witness_OnlyResetLeavesFaulted :
    ((faultedWith [.keyUp 1]).execState = .faulted ∧ (faultedWith [.keyUp 1]).inputs = [.keyUp 1] ∧ Command.keyUp 1 ≠ .reset) ∧
    ((faultedWith [.reset]).execState = .faulted ∧ (faultedWith [.reset]).inputs = [.reset]) := by decide

theorem witness_KeyWaitStartsOnlyByFX0A :
    ∃ t, step (ready 0xFF0A State.reset) = .next t ∧ (ready 0xFF0A State.reset).execState ≠ .waitingForKey ∧
      t.execState = .waitingForKey := ⟨_, rfl, by decide, rfl⟩

theorem witness_KeyWaitEndsOnlyByKeyUpOrReset :
    (∃ t, step (waitingFor [.keyUp 15]) = .next t ∧ t.execState ≠ .waitingForKey) ∧
    (∃ t, step (waitingFor [.reset]) = .next t ∧ t.execState ≠ .waitingForKey) :=
  ⟨⟨_, rfl, by decide⟩, _, rfl, by decide⟩

/-- Each of the four writers changes a byte; FX33 and FX55 the last byte of memory. -/
theorem witness_MemoryChangesOnlyByItsWriters :
    (∃ t, step (ready 0xF033 ((withV 9 0 0).setI 0xFFD)) = .next t ∧ t.mem.read 0xFFF ≠ some 0) ∧
    (∃ t, step (ready 0xF155 ((withV 9 9 0).setI 0xFFE)) = .next t ∧ t.mem.read 0xFFF ≠ some 0) ∧
    (∃ t, step (State.reset.setInputs [.load [1]]) = .next t ∧ t.mem.read 0x200 ≠ some 0) ∧
    (∃ t, step ((State.reset.setMem [(0x200, 1)]).setInputs [.reset]) = .next t ∧ t.mem.read 0x200 ≠ some 1) :=
  ⟨⟨_, rfl, by decide⟩, ⟨_, rfl, by decide⟩, ⟨_, rfl, by decide⟩, _, rfl, by decide⟩

theorem witness_PixelsGoOffOnlyByClearOrReset :
    (∃ t, step (ready 0x00E0 painted) = .next t ∧ painted.pixel 7 31 = true ∧ t.pixel 7 31 = false) ∧
    (∃ t, step (painted.setInputs [.reset]) = .next t ∧ painted.pixel 0 0 = true ∧ t.pixel 0 0 = false) :=
  ⟨⟨_, rfl, by decide, by decide⟩, _, rfl, by decide, by decide⟩

theorem witness_DelayTimerChangesOnlyByItsWriters :
    (∃ t, step ((State.reset.setDt 1).setInputs [.tick]) = .next t ∧ t.dt ≠ 1) ∧
    (∃ t, step (ready 0xF015 (withV 5 0 0)) = .next t ∧ t.dt ≠ 0) ∧
    (∃ t, step ((State.reset.setDt 1).setInputs [.reset]) = .next t ∧ t.dt ≠ 1) :=
  ⟨⟨_, rfl, by decide⟩, ⟨_, rfl, by decide⟩, _, rfl, by decide⟩

theorem witness_KeysChangeOnlyByHostEvents :
    (∃ t, step (State.reset.setInputs [.keyDown 15]) = .next t ∧ t.key 15 ≠ State.reset.key 15) ∧
    (∃ t, step ((State.reset.setKey 0 true).setInputs [.keyUp 0]) = .next t ∧ t.key 0 ≠ true) ∧
    (∃ t, step ((State.reset.setKey 0 true).setInputs [.reset]) = .next t ∧ t.key 0 ≠ true) :=
  ⟨⟨_, rfl, by decide⟩, ⟨_, rfl, by decide⟩, _, rfl, by decide⟩

theorem witness_OnlyCXNNReadsTheRandomByte :
    (∀ x nn, Instr.orReg 0 1 ≠ .rnd x nn) ∧ ∃ t, exec (.orReg 0 1) State.reset = .next t :=
  ⟨(fun _ _ h => by cases h), _, rfl⟩

theorem witness_StoredWordIsFetchedNext :
    ∃ t, exec (.storeRegs 1) ((withV 0x12 0x34 0).setI 0x202) = .next t ∧ t.execState ≠ .faulted ∧
      t.pc.toNat = ((withV 0x12 0x34 0).setI 0x202).i.toNat + 0 := ⟨_, rfl, by decide, by decide⟩

theorem witness_PlacedWordRunsNext : decodeTableWord 16 0xD015 = some (.drw 0 1 5) := by decide

theorem witness_KeyDownSetsItsKey :
    (waitingFor [.keyDown 15]).execState ≠ .faulted ∧ (waitingFor [.keyDown 15]).inputs = [.keyDown 15] := by decide

theorem witness_KeyUpClearsItsKeyAndEndsAWait :
    ((State.reset.setInputs [.keyUp 0]).inputs = [.keyUp 0] ∧ (State.reset.setInputs [.keyUp 0]).execState = .running) ∧
    (((waitingFor [.keyUp 15]).setWake 15).inputs = [.keyUp 15] ∧
      ((waitingFor [.keyUp 15]).setWake 15).execState = .waitingForKey ∧
      ((waitingFor [.keyUp 15]).setWake 15).wake.toNat = (15 : Reg).val) ∧
    (((waitingFor [.keyUp 15]).setWake 16).execState = .waitingForKey ∧
      16 ≤ ((waitingFor [.keyUp 15]).setWake 16).wake.toNat) := by decide

theorem witness_TickCountsTheDelayTimerDown :
    (waitingFor [.tick]).execState ≠ .faulted ∧ (waitingFor [.tick]).inputs = [.tick] ∧ (waitingFor [.tick]).dt.toNat = 0 ∧
    ((waitingFor [.tick]).setDt 1).dt.toNat > 0 := by decide

theorem witness_LoadPlacesTheProgramOrIsRejected :
    State.reset.execState ≠ .faulted ∧
    (State.reset.setInputs [.load (List.replicate 3584 1)]).inputs = [.load (List.replicate 3584 1)] ∧
    (List.replicate 3584 (1 : Byte)).length ≤ 3584 ∧ (List.replicate 3585 (1 : Byte)).length > 3584 :=
  ⟨by decide, rfl, by rw [List.length_replicate], by rw [List.length_replicate]; decide⟩

theorem witness_ResetCommandGivesTheResetState : (faultedWith [.reset, .tick]).inputs = [.reset, .tick] := by decide

theorem witness_ResetValuesAreTheSpecs : 0x50 ≤ 0xFFF ∧ 0xFFF < 0x1000 ∧ 0x1000 ≤ 0x1000 := by decide

theorem witness_LogicWritesResultAndClearsFlag : (0xE : Reg) ≠ vf := by decide

theorem witness_AddSetsCarry : (0xE : Reg) ≠ vf := by decide

theorem witness_SubtractionsSetNoBorrow : (0xE : Reg) ≠ vf := by decide

theorem witness_ShiftsTakeVYAndKeepTheBitShiftedOut : (0xE : Reg) ≠ vf := by decide

theorem witness_RandomByteIsMasked :
    (ready 0xC00F State.reset).StepNext 0xAB [] ∧ (ready 0xC00F State.reset).Executes (.rnd 0 0x0F) :=
  ⟨.inl rfl, ready_executes _ _ _ (by decide) rfl⟩

theorem witness_SkipsAdvanceByTwoOrFour : (1 : BitVec 4) ≠ 0 ∧ (15 : BitVec 4) ≠ 0 := by decide

theorem witness_CallPushesTheReturnAddress :
    (State.reset.setStack (List.replicate 15 0)).stack.length < 16 ∧
    (State.reset.setStack (List.replicate 16 0)).stack.length = 16 := by decide

theorem witness_ReturnPopsTheTopEntry :
    (State.reset.setStack [0x1000]).stack = [0x1000] ∧ State.reset.stack = [] := by decide

theorem witness_CallThenReturnComesBack : (State.reset.setStack (List.replicate 15 0)).stack.length < 16 := by decide

theorem witness_AddToAddressRegister :
    ((withV 0xFF 0 0).setI 0xFF00).i.toNat + (((withV 0xFF 0 0).setI 0xFF00).reg 0).toNat ≤ 0xFFFF ∧
    ((withV 0xFF 0 0).setI 0xFF01).i.toNat + (((withV 0xFF 0 0).setI 0xFF01).reg 0).toNat > 0xFFFF := by decide

theorem witness_DecimalDigitsAreStored :
    (State.reset.setI 0xFFD).i.toNat < 0xFFE ∧ 0xFFE ≤ (State.reset.setI 0xFFE).i.toNat := by decide

theorem witness_RegistersAreStoredAtI :
    (State.reset.setI 0xFF0).i.toNat + (15 : Reg).val < 0x1000 ∧
    0x1000 ≤ (State.reset.setI 0xFF1).i.toNat + (15 : Reg).val := by decide

theorem witness_RegistersAreLoadedFromI :
    (State.reset.setI 0xFFF).i.toNat + (0 : Reg).val < 0x1000 ∧
    0x1000 ≤ (State.reset.setI 0x1000).i.toNat + (0 : Reg).val := by decide

theorem witness_StoredRegistersLoadBack :
    ∃ t u, ((withV 1 2 3).setI 0xFFE).i.toNat + (1 : Reg).val < 0x1000 ∧
      exec (.storeRegs 1) ((withV 1 2 3).setI 0xFFE) = .next t ∧ (∀ a, Memory.read (State.mem u) a = Memory.read (State.mem t) a) ∧
      State.i u = ((withV 1 2 3).setI 0xFFE).i := ⟨_, State.setI _ 0xFFE, by decide, rfl, fun _ => rfl, rfl⟩

/-- A draw from the last byte of memory that turns a pixel on, and a draw of no rows, from any I, that turns none on. -/
theorem witness_DrawCompositesTheSprite :
    ((withMemAtI 0xFFF [0x80]).i.toNat + 1 ≤ 0x1000 ∧ ∃ t, exec (.drw 0 1 1) (withMemAtI 0xFFF [0x80]) = .next t ∧
      (withMemAtI 0xFFF [0x80]).pixel 0 0 = false ∧ t.pixel 0 0 = true) ∧
    (∃ t, exec (.drw 0 1 0) (State.reset.setI 0xFFFF) = .next t ∧
      ¬ ∃ px py, (State.reset.setI 0xFFFF).pixel px py = false ∧ t.pixel px py = true) :=
  ⟨⟨by decide, _, rfl, by decide, by decide⟩, _, rfl, fun ⟨_, _, h, h'⟩ => Bool.noConfusion (h.symm.trans h')⟩

theorem witness_SecondDrawHitsNothing :
    ∃ t, (withMemAtI 0xFFF [0x80]).i.toNat + 1 ≤ 0x1000 ∧ exec (.drw 0 1 1) (withMemAtI 0xFFF [0x80]) = .next t ∧
      (∀ a, t.mem.read a = (withMemAtI 0xFFF [0x80]).mem.read a) ∧ t.i = (withMemAtI 0xFFF [0x80]).i ∧
      t.reg 0 = (withMemAtI 0xFFF [0x80]).reg 0 ∧ t.reg 1 = (withMemAtI 0xFFF [0x80]).reg 1 :=
  ⟨_, by decide, rfl, fun _ => rfl, rfl, rfl, rfl⟩

theorem witness_KeySkipsTestTheKey :
    ((withV 15 0 0).reg 0).toNat = (15 : KeyIndex).val ∧ 16 ≤ ((withV 16 0 0).reg 0).toNat := by decide

theorem witness_KeyWaitDeliversTheReleasedKey :
    ((ready 0xFF0A State.reset).setInputs [.step 1, .keyUp 7]).inputs = [.step 1, .keyUp 7] ∧
    ((ready 0xFF0A State.reset).setInputs [.step 1, .keyUp 7]).Executes (.ldVxK 15) :=
  ⟨rfl, ⟨1, [.keyUp 7], .inl rfl⟩, rfl, 0xFF0A, rfl, rfl⟩

end Sys2Proof.Tests
end

section
/-! SUPPORT. Lemmas shared by the control-flow proofs: what a skip does to pc, the frame of an update of pc, and what
the words of groups 3, 4, 5 and 9 decode to. -/

namespace Sys2Proof

variable (x y : Reg) (nn : Byte) (n : BitVec 4)

/-! ### Groups 5 and 9 need N = 0 (30_encoding.md R68) -/

theorem decodeNeedsN0_of_zero {w : Word} (i : Instr) (h : nField w = 0x0) : decodeNeedsN0 w i = .ok i := if_pos h

theorem decodeNeedsN0_of_ne_zero {w : Word} (i : Instr) (h : nField w ≠ 0x0) :
    decodeNeedsN0 w i = .error (.unknownInstruction w) := if_neg h

theorem decodeWord_of_op5 {w : Word} (h : opField w = 0x5) :
    decodeWord w = decodeNeedsN0 w (.seReg (xField w) (yField w)) := by
  rw [decodeWord, h]; rfl

theorem decodeWord_of_op9 {w : Word} (h : opField w = 0x9) :
    decodeWord w = decodeNeedsN0 w (.sneReg (xField w) (yField w)) := by
  rw [decodeWord, h]; rfl

/-! ### The words of the register skips -/

theorem decodeWord_seImm : decodeWord (wordXnn 0x3 x nn) = .ok (.seImm x nn) := by
  obtain ⟨hop, hx, hnn⟩ := wordXnn_fields 0x3 x nn
  rw [decodeWord, hop, hx, hnn]; rfl

theorem decodeWord_sneImm : decodeWord (wordXnn 0x4 x nn) = .ok (.sneImm x nn) := by
  obtain ⟨hop, hx, hnn⟩ := wordXnn_fields 0x4 x nn
  rw [decodeWord, hop, hx, hnn]; rfl

theorem decodeWord_seReg : decodeWord (wordXyn 0x5 x y 0x0) = .ok (.seReg x y) := by
  obtain ⟨hop, hx, hy, hn⟩ := wordXyn_fields 0x5 0x0 x y
  rw [decodeWord_of_op5 hop, decodeNeedsN0_of_zero _ hn, hx, hy]

theorem decodeWord_sneReg : decodeWord (wordXyn 0x9 x y 0x0) = .ok (.sneReg x y) := by
  obtain ⟨hop, hx, hy, hn⟩ := wordXyn_fields 0x9 0x0 x y
  rw [decodeWord_of_op9 hop, decodeNeedsN0_of_zero _ hn, hx, hy]

theorem decodeWord_op5_unknown (h : n ≠ 0) :
    decodeWord (wordXyn 0x5 x y n) = .error (.unknownInstruction (wordXyn 0x5 x y n)) := by
  obtain ⟨hop, -, -, hn⟩ := wordXyn_fields 0x5 n x y
  rw [decodeWord_of_op5 hop, decodeNeedsN0_of_ne_zero _ (by rwa [hn])]

theorem decodeWord_op9_unknown (h : n ≠ 0) :
    decodeWord (wordXyn 0x9 x y n) = .error (.unknownInstruction (wordXyn 0x9 x y n)) := by
  obtain ⟨hop, -, -, hn⟩ := wordXyn_fields 0x9 n x y
  rw [decodeWord_of_op9 hop, decodeNeedsN0_of_ne_zero _ (by rwa [hn])]

end Sys2Proof

namespace Sys2Proof.Machine

section
variable (s : State) (x y : Reg) (nn : Byte)

/-! ### Updates of pc -/

theorem frame_setPc (a : Word) : Frame s (s.setPc a) fun p => p = .pc := by
  intro p hp
  cases p with
  | pc => exact absurd rfl hp
  | _ => rfl

/-- The fetch advance and then a skip: pc + 4 when the skip is taken, pc + 2 when not (40_control_flow.md R89). -/
theorem State.advance_skipIf (c : Bool) :
    s.advance.skipIf c = s.setPc (if c then s.pc + 4 else s.pc + 2) := by
  cases c with
  | false => rfl
  | true =>
    show s.setPc (s.pc + 2 + 2) = s.setPc (s.pc + 4)
    rw [BitVec.add_assoc]; rfl

/-! ### What the register skips do -/

theorem exec_seImm : exec (.seImm x nn) s = .next (s.setPc (if s.reg x = nn then s.pc + 4 else s.pc + 2)) := by
  simp only [exec, execSeImm, State.advance_skipIf, decide_eq_true_eq]

theorem exec_sneImm : exec (.sneImm x nn) s = .next (s.setPc (if s.reg x ≠ nn then s.pc + 4 else s.pc + 2)) := by
  simp only [exec, execSneImm, State.advance_skipIf, decide_eq_true_eq]

theorem exec_seReg : exec (.seReg x y) s = .next (s.setPc (if s.reg x = s.reg y then s.pc + 4 else s.pc + 2)) := by
  simp only [exec, execSeReg, State.advance_skipIf, decide_eq_true_eq]

theorem exec_sneReg : exec (.sneReg x y) s = .next (s.setPc (if s.reg x ≠ s.reg y then s.pc + 4 else s.pc + 2)) := by
  simp only [exec, execSneReg, State.advance_skipIf, decide_eq_true_eq]

end

/-- Settles O42: the words decode by their fields, and each skip is one update of pc. -/
theorem skipsAdvanceByTwoOrFour : Obligations.SkipsAdvanceByTwoOrFour := by
  intro s x y nn
  refine ⟨⟨decodeWord_seImm x nn, decodeWord_sneImm x nn, decodeWord_seReg x y, decodeWord_sneReg x y, ?unknown⟩,
    ?seImm, ?sneImm, ?seReg, ?sneReg⟩
  case unknown => exact fun n hn => ⟨decodeWord_op5_unknown x y n hn, decodeWord_op9_unknown x y n hn⟩
  case seImm => exact ⟨_, exec_seImm s x nn, rfl, frame_setPc s _⟩
  case sneImm => exact ⟨_, exec_sneImm s x nn, rfl, frame_setPc s _⟩
  case seReg => exact ⟨_, exec_seReg s x y, rfl, frame_setPc s _⟩
  case sneReg => exact ⟨_, exec_sneReg s x y, rfl, frame_setPc s _⟩

end Sys2Proof.Machine
end

section
/-! SUPPORT. Lemmas shared by the ALU proofs: what the words of groups 6, 7 and 8 decode to, how frames compose, the
three ways an ALU instruction completes, and the value of each flag. -/

namespace Sys2Proof

variable (x y : Reg) (nn : Byte)

/-! ### The words of the ALU family -/

theorem decodeWord_ldImm : decodeWord (wordXnn 0x6 x nn) = .ok (.ldImm x nn) := by
  obtain ⟨hop, hx, hnn⟩ := wordXnn_fields 0x6 x nn
  rw [decodeWord, hop, hx, hnn]; rfl

theorem decodeWord_addImm : decodeWord (wordXnn 0x7 x nn) = .ok (.addImm x nn) := by
  obtain ⟨hop, hx, hnn⟩ := wordXnn_fields 0x7 x nn
  rw [decodeWord, hop, hx, hnn]; rfl

/-- Group 8 reads its registers from X and Y, whichever instruction N selects (30_encoding.md R65). -/
theorem decodeWord_of_group8 {n : BitVec 4} {form : Reg → Reg → Instr}
    (h : ∀ w, nField w = n → decodeGroup8 w = .ok (form (xField w) (yField w))) :
    decodeWord (wordXyn 0x8 x y n) = .ok (form x y) := by
  obtain ⟨hop, hx, hy, hn⟩ := wordXyn_fields 0x8 n x y
  have hgroup : decodeWord (wordXyn 0x8 x y n) = decodeGroup8 (wordXyn 0x8 x y n) := by
    rw [decodeWord, hop]; rfl
  rw [hgroup, h _ hn, hx, hy]

theorem decodeWord_ldReg : decodeWord (wordXyn 0x8 x y 0x0) = .ok (.ldReg x y) :=
  decodeWord_of_group8 x y fun w hn => by simp [decodeGroup8, hn]

theorem decodeWord_orReg : decodeWord (wordXyn 0x8 x y 0x1) = .ok (.orReg x y) :=
  decodeWord_of_group8 x y fun w hn => by simp [decodeGroup8, hn]

theorem decodeWord_andReg : decodeWord (wordXyn 0x8 x y 0x2) = .ok (.andReg x y) :=
  decodeWord_of_group8 x y fun w hn => by simp [decodeGroup8, hn]

theorem decodeWord_xorReg : decodeWord (wordXyn 0x8 x y 0x3) = .ok (.xorReg x y) :=
  decodeWord_of_group8 x y fun w hn => by simp [decodeGroup8, hn]

theorem decodeWord_addReg : decodeWord (wordXyn 0x8 x y 0x4) = .ok (.addReg x y) :=
  decodeWord_of_group8 x y fun w hn => by simp [decodeGroup8, hn]

theorem decodeWord_subReg : decodeWord (wordXyn 0x8 x y 0x5) = .ok (.subReg x y) :=
  decodeWord_of_group8 x y fun w hn => by simp [decodeGroup8, hn]

theorem decodeWord_shrReg : decodeWord (wordXyn 0x8 x y 0x6) = .ok (.shrReg x y) :=
  decodeWord_of_group8 x y fun w hn => by simp [decodeGroup8, hn]

theorem decodeWord_subnReg : decodeWord (wordXyn 0x8 x y 0x7) = .ok (.subnReg x y) :=
  decodeWord_of_group8 x y fun w hn => by simp [decodeGroup8, hn]

theorem decodeWord_shlReg : decodeWord (wordXyn 0x8 x y 0xE) = .ok (.shlReg x y) :=
  decodeWord_of_group8 x y fun w hn => by simp [decodeGroup8, hn]

end Sys2Proof

namespace Sys2Proof.Machine

/-! ### Frames -/

section
variable {s t u : State} {P Q : Part → Prop}

theorem Part.same_trans {p : Part} (hst : p.same s t) (htu : p.same t u) : p.same s u := by
  cases p <;> exact Eq.trans htu hst

theorem Frame.mono (h : Frame s t P) (hPQ : ∀ p, P p → Q p) : Frame s t Q := fun p hp => h p (mt (hPQ p) hp)

theorem Frame.trans (hst : Frame s t P) (htu : Frame t u Q) : Frame s u fun p => P p ∨ Q p := fun p hp =>
  Part.same_trans (hst p fun h => hp (.inl h)) (htu p fun h => hp (.inr h))

end

theorem frame_setReg (s : State) (x : Reg) (u : Byte) : Frame s (s.setReg x u) fun p => p = .reg x := by
  intro p hp
  cases p with
  | reg y => exact (s.setReg_reg x u y).trans (if_neg fun hy => hp (congrArg Part.reg hy))
  | _ => rfl

theorem frame_advance_setReg (s : State) (x : Reg) (u : Byte) :
    Frame s (s.advance.setReg x u) fun p => p = .reg x ∨ p = .pc :=
  ((frame_setPc s _).trans (frame_setReg _ x u)).mono fun _ => Or.symm

theorem frame_advance_setReg_setReg (s : State) (x y : Reg) (u v : Byte) :
    Frame s ((s.advance.setReg x u).setReg y v) fun p => p = .reg x ∨ p = .reg y ∨ p = .pc :=
  ((frame_advance_setReg s x u).trans (frame_setReg _ y v)).mono fun _ => by tauto

/-! ### The three ways an ALU instruction completes (41_alu.md R90 to R100) -/

section
variable {s : State} {i : Instr} {x : Reg} {r flag : Byte}

theorem completes_of_writeResult (h : exec i s = writeResult x r s) :
    ∃ t, exec i s = .next t ∧ t.reg x = r ∧ t.pc = s.pc + 2 ∧ Frame s t fun p => p = .reg x ∨ p = .pc :=
  ⟨_, h, by simp, rfl, frame_advance_setReg s x r⟩

/-- The flag is written last, so VF is the flag even when X = F (41_alu.md R103). -/
theorem completes_of_writeResultThenFlag (h : exec i s = writeResultThenFlag x r flag s) :
    ∃ t, exec i s = .next t ∧ (x ≠ vf → t.reg x = r) ∧ t.reg vf = flag ∧ t.pc = s.pc + 2 ∧
      Frame s t fun p => p = .reg x ∨ p = .reg vf ∨ p = .pc :=
  ⟨_, h, fun hx => by simp [hx], by simp, rfl, frame_advance_setReg_setReg s x vf r flag⟩

/-- The result is written last, so VX is the result even when X = F (41_alu.md R103). -/
theorem completes_of_writeFlagThenResult (h : exec i s = writeFlagThenResult x r flag s) :
    ∃ t, exec i s = .next t ∧ t.reg x = r ∧ (x ≠ vf → t.reg vf = flag) ∧ t.pc = s.pc + 2 ∧
      Frame s t fun p => p = .reg x ∨ p = .reg vf ∨ p = .pc :=
  ⟨_, h, by simp, fun hx => by simp [hx.symm], rfl,
    (frame_advance_setReg_setReg s vf x flag r).mono fun _ => by tauto⟩

end

/-! ### Which way each instruction takes, and with what values -/

section
variable (s : State) (x y : Reg) (nn : Byte)

theorem exec_ldImm : exec (.ldImm x nn) s = writeResult x nn s := rfl

theorem exec_addImm : exec (.addImm x nn) s = writeResult x (s.reg x + nn) s := rfl

theorem exec_ldReg : exec (.ldReg x y) s = writeResult x (s.reg y) s := rfl

theorem exec_orReg : exec (.orReg x y) s = writeResultThenFlag x (s.reg x ||| s.reg y) 0 s := rfl

theorem exec_andReg : exec (.andReg x y) s = writeResultThenFlag x (s.reg x &&& s.reg y) 0 s := rfl

theorem exec_xorReg : exec (.xorReg x y) s = writeResultThenFlag x (s.reg x ^^^ s.reg y) 0 s := rfl

theorem exec_addReg :
    exec (.addReg x y) s = writeResultThenFlag x (s.reg x + s.reg y) (carryFlag (s.reg x) (s.reg y)) s := rfl

theorem exec_subReg :
    exec (.subReg x y) s = writeResultThenFlag x (s.reg x - s.reg y) (noBorrowFlag (s.reg x) (s.reg y)) s := rfl

theorem exec_subnReg :
    exec (.subnReg x y) s = writeResultThenFlag x (s.reg y - s.reg x) (noBorrowFlag (s.reg y) (s.reg x)) s := rfl

theorem exec_shrReg :
    exec (.shrReg x y) s = writeFlagThenResult x (s.reg y >>> 1) (shiftedOutRight (s.reg y)) s := rfl

theorem exec_shlReg :
    exec (.shlReg x y) s = writeFlagThenResult x (s.reg y <<< 1) (shiftedOutLeft (s.reg y)) s := rfl

end

/-! ### Results and flags as numbers -/

section
variable (a b : Byte)

theorem flagOf_toNat (c : Bool) : (flagOf c).toNat = if c then 1 else 0 := by cases c <;> rfl

theorem carryFlag_toNat : (carryFlag a b).toNat = if a.toNat + b.toNat > 255 then 1 else 0 := by
  simp only [carryFlag, flagOf_toNat, decide_eq_true_eq]

theorem noBorrowFlag_toNat : (noBorrowFlag a b).toNat = if b.toNat > a.toNat then 0 else 1 := by
  rw [noBorrowFlag, flagOf_toNat]
  by_cases h : b.toNat > a.toNat <;> simp [h]

theorem byte_sub_toNat : (a - b).toNat = (256 + a.toNat - b.toNat) % 256 := by
  have hb := b.isLt
  rw [BitVec.toNat_sub]
  omega

theorem byte_shiftRight_one_toNat : (a >>> 1).toNat = a.toNat / 2 := by
  rw [BitVec.toNat_ushiftRight, Nat.shiftRight_eq_div_pow]

theorem byte_shiftLeft_one_toNat : (a <<< 1).toNat = 2 * a.toNat % 256 := by
  rw [BitVec.toNat_shiftLeft, Nat.shiftLeft_eq, Nat.mul_comm]

theorem byte_and_one_toNat : (a &&& 1).toNat = a.toNat % 2 := by
  rw [BitVec.toNat_and]; exact Nat.and_one_is_mod _

theorem shiftedOutRight_toNat : (shiftedOutRight a).toNat = a.toNat % 2 := byte_and_one_toNat a

theorem shiftedOutLeft_toNat : (shiftedOutLeft a).toNat = a.toNat / 128 := by
  have ha := a.isLt
  rw [shiftedOutLeft, byte_and_one_toNat, BitVec.toNat_ushiftRight, Nat.shiftRight_eq_div_pow]
  omega

end

/-- A difference written before its no-borrow flag, as numbers: the common part of SUB and SUBN. -/
theorem completes_of_subtraction {s : State} {i : Instr} {x : Reg} {a b : Byte}
    (h : exec i s = writeResultThenFlag x (a - b) (noBorrowFlag a b) s) :
    ∃ t, exec i s = .next t ∧ (x ≠ vf → (t.reg x).toNat = (256 + a.toNat - b.toNat) % 256) ∧
      (t.reg vf).toNat = (if b.toNat > a.toNat then 0 else 1) ∧ t.pc = s.pc + 2 ∧
      Frame s t fun p => p = .reg x ∨ p = .reg vf ∨ p = .pc := by
  obtain ⟨t, ht, hx, hvf, hpc, hframe⟩ := completes_of_writeResultThenFlag h
  refine ⟨t, ht, fun hne => ?_, ?_, hpc, hframe⟩
  · rw [hx hne, byte_sub_toNat]
  · rw [hvf, noBorrowFlag_toNat]

/-! ### The obligations -/

/-- Settles O34: each of the three is one register write after the fetch advance. -/
theorem loadsAndAddImmediateWriteNoFlag : Obligations.LoadsAndAddImmediateWriteNoFlag := by
  refine ⟨fun x y nn => ⟨decodeWord_ldImm x nn, decodeWord_addImm x nn, decodeWord_ldReg x y⟩, ?ldImm, ?addImm, ?ldReg⟩
  case ldImm => exact fun s x nn => completes_of_writeResult (exec_ldImm s x nn)
  case addImm =>
    intro s x nn
    obtain ⟨t, ht, hx, hpc, hframe⟩ := completes_of_writeResult (exec_addImm s x nn)
    exact ⟨t, ht, by rw [hx, BitVec.toNat_add], hpc, hframe⟩
  case ldReg => exact fun s x y => completes_of_writeResult (exec_ldReg s x y)

/-- Settles O35: each of the three writes its result and then the flag 0. -/
theorem logicWritesResultAndClearsFlag : Obligations.LogicWritesResultAndClearsFlag := fun s x y =>
  ⟨⟨decodeWord_orReg x y, decodeWord_andReg x y, decodeWord_xorReg x y⟩,
    completes_of_writeResultThenFlag (exec_orReg s x y),
    completes_of_writeResultThenFlag (exec_andReg s x y),
    completes_of_writeResultThenFlag (exec_xorReg s x y)⟩

/-- Settles O36: the sum is written before the carry, and both are computed from the registers before the instruction. -/
theorem addSetsCarry : Obligations.AddSetsCarry := by
  intro s x y
  obtain ⟨t, ht, hx, hvf, hpc, hframe⟩ := completes_of_writeResultThenFlag (exec_addReg s x y)
  refine ⟨decodeWord_addReg x y, t, ht, fun hne => ?_, ?_, hpc, hframe⟩
  · rw [hx hne, BitVec.toNat_add]
  · rw [hvf, carryFlag_toNat]

/-- Settles O37: SUB and SUBN are one subtraction with the operands exchanged. -/
theorem subtractionsSetNoBorrow : Obligations.SubtractionsSetNoBorrow := fun s x y =>
  ⟨⟨decodeWord_subReg x y, decodeWord_subnReg x y⟩,
    completes_of_subtraction (exec_subReg s x y), completes_of_subtraction (exec_subnReg s x y)⟩

/-- Settles O38: each shift writes the bit shifted out of VY and then the shifted VY. -/
theorem shiftsTakeVYAndKeepTheBitShiftedOut : Obligations.ShiftsTakeVYAndKeepTheBitShiftedOut := by
  intro s x y
  refine ⟨⟨decodeWord_shrReg x y, decodeWord_shlReg x y⟩, ?shr, ?shl⟩
  case shr =>
    obtain ⟨t, ht, hx, hvf, hpc, hframe⟩ := completes_of_writeFlagThenResult (exec_shrReg s x y)
    refine ⟨t, ht, ?_, fun hne => ?_, hpc, hframe⟩
    · rw [hx, byte_shiftRight_one_toNat]
    · rw [hvf hne, shiftedOutRight_toNat]
  case shl =>
    obtain ⟨t, ht, hx, hvf, hpc, hframe⟩ := completes_of_writeFlagThenResult (exec_shlReg s x y)
    refine ⟨t, ht, ?_, fun hne => ?_, hpc, hframe⟩
    · rw [hx, byte_shiftLeft_one_toNat]
    · rw [hvf hne, shiftedOutLeft_toNat]

end Sys2Proof.Machine
end

section
/-! SUPPORT. Lemmas of the address register: what the words of ANNN and FX29 decode to, the frame of an update of I, the
addresses the two load as numbers, and how an instruction that only sets I completes. -/

namespace Sys2Proof

variable (x : Reg) (addr : Addr)

/-! ### The words of ANNN and FX29 -/

theorem decodeWord_ldI : decodeWord (wordNnn 0xA addr) = .ok (.ldI addr) := by
  obtain ⟨hop, hnnn⟩ := wordNnn_fields 0xA addr
  rw [decodeWord, hop, hnnn]; rfl

/-- Group F reads its register from X, whichever instruction NN selects (30_encoding.md R67). -/
theorem decodeWord_of_groupF {nn : Byte} {form : Reg → Instr}
    (h : ∀ w, nnField w = nn → decodeGroupF w = .ok (form (xField w))) :
    decodeWord (wordXnn 0xF x nn) = .ok (form x) := by
  obtain ⟨hop, hx, hnn⟩ := wordXnn_fields 0xF x nn
  have hgroup : decodeWord (wordXnn 0xF x nn) = decodeGroupF (wordXnn 0xF x nn) := by
    rw [decodeWord, hop]; rfl
  rw [hgroup, h _ hnn, hx]

theorem decodeWord_ldFVx : decodeWord (wordXnn 0xF x 0x29) = .ok (.ldFVx x) :=
  decodeWord_of_groupF x fun w hnn => by simp [decodeGroupF, hnn]

end Sys2Proof

namespace Sys2Proof.Machine

/-! ### The addresses as numbers -/

theorem zextAddr_toNat (addr : Addr) : (zextAddr addr).toNat = addr.toNat :=
  BitVec.toNat_setWidth_of_le (by decide)

/-- A glyph address is at most 5 * 255 = 1275, so neither the modulo 4096 nor the 16 bits of I change it
(42_index_memory.md R112). -/
theorem glyphAddr_toNat (u : Byte) : (glyphAddr u).toNat = 5 * u.toNat := by
  have hu := u.isLt
  rw [glyphAddr, BitVec.toNat_ofNat, Config.glyphBytes, Config.memSize, Nat.mod_eq_of_lt (b := 4096) (by omega),
    Nat.mod_eq_of_lt (by omega), Nat.mul_comm]

/-! ### Updates of I -/

theorem frame_setI (s : State) (a : Word) : Frame s (s.setI a) fun p => p = .i := by
  intro p hp
  cases p with
  | i => exact absurd rfl hp
  | _ => rfl

theorem frame_advance_setI (s : State) (a : Word) : Frame s (s.advance.setI a) fun p => p = .i ∨ p = .pc :=
  ((frame_setPc s _).trans (frame_setI _ a)).mono fun _ => Or.symm

theorem exec_ldI (s : State) (addr : Addr) : exec (.ldI addr) s = .next (s.advance.setI (zextAddr addr)) := rfl

theorem exec_ldFVx (s : State) (x : Reg) : exec (.ldFVx x) s = .next (s.advance.setI (glyphAddr (s.reg x))) := rfl

/-- How an instruction that sets I to an address and nothing else completes, with I as a number. -/
theorem completes_of_setI {s : State} {i : Instr} {a : Word} {n : Nat} (h : exec i s = .next (s.advance.setI a))
    (ha : a.toNat = n) :
    ∃ t, exec i s = .next t ∧ t.i.toNat = n ∧ t.pc = s.pc + 2 ∧ Frame s t fun p => p = .i ∨ p = .pc :=
  ⟨_, h, ha, rfl, frame_advance_setI s a⟩

/-- Settles O47: each of the two is one update of I after the fetch advance. -/
theorem addressRegisterIsSet : Obligations.AddressRegisterIsSet := by
  refine ⟨fun x addr => ⟨decodeWord_ldI addr, decodeWord_ldFVx x⟩, ?ldI, ?ldFVx⟩
  case ldI => exact fun s addr => completes_of_setI (exec_ldI s addr) (zextAddr_toNat addr)
  case ldFVx => exact fun s x => completes_of_setI (exec_ldFVx s x) (glyphAddr_toNat (s.reg x))

end Sys2Proof.Machine
end

section
/-! SUPPORT. Lemmas of 00E0: the one word that decodes to it, the frame of an update of the framebuffer, and the clearing
of the picture. -/

namespace Sys2Proof

variable (w : Word)

/-! ### Only group 0 has 00E0 (30_encoding.md R64) -/

theorem decodeGroup0_eq_cls_iff : decodeGroup0 w = .ok .cls ↔ w = 0x00E0 := by
  unfold decodeGroup0
  split
  next hcls => exact iff_of_true rfl hcls
  next hcls => exact iff_of_false (by split <;> simp) hcls

theorem decodeNeedsN0_ne_cls {i : Instr} (h : i ≠ .cls) : decodeNeedsN0 w i ≠ .ok .cls := by
  unfold decodeNeedsN0
  split <;> simp [h]

theorem decodeGroup8_ne_cls : decodeGroup8 w ≠ .ok .cls := by
  unfold decodeGroup8
  split_ifs <;> simp

theorem decodeGroupE_ne_cls : decodeGroupE w ≠ .ok .cls := by
  unfold decodeGroupE
  split_ifs <;> simp

theorem decodeGroupF_ne_cls : decodeGroupF w ≠ .ok .cls := by
  unfold decodeGroupF
  split_ifs <;> simp

/-- The dispatch on op, backwards; in the proof's case split `h_1` to `h_16` are the groups 0 to F (30_encoding.md R63). -/
theorem decodeWord_eq_cls_iff : decodeWord w = .ok .cls ↔ w = 0x00E0 := by
  refine ⟨fun h => ?_, fun h => by rw [h]; rfl⟩
  unfold decodeWord at h
  split at h
  case h_1 => exact (decodeGroup0_eq_cls_iff w).mp h
  case h_6 | h_10 => exact absurd h (decodeNeedsN0_ne_cls w nofun)
  case h_9 => exact absurd h (decodeGroup8_ne_cls w)
  case h_15 => exact absurd h (decodeGroupE_ne_cls w)
  case h_16 => exact absurd h (decodeGroupF_ne_cls w)
  all_goals cases h

end Sys2Proof

namespace Sys2Proof.Machine

/-! ### Updates of the framebuffer -/

theorem frame_setFb (s : State) (f : Framebuffer) : Frame s (s.setFb f) fun p => ∃ x y, p = .pixel x y := by
  intro p hp
  cases p with
  | pixel x y => exact absurd ⟨x, y, rfl⟩ hp
  | _ => rfl

theorem frame_advance_setFb (s : State) (f : Framebuffer) :
    Frame s (s.advance.setFb f) fun p => p = .pc ∨ ∃ x y, p = .pixel x y :=
  (frame_setPc s _).trans (frame_setFb _ f)

theorem exec_cls (s : State) : exec .cls s = .next (s.advance.setFb Framebuffer.blank) := rfl

/-- Settles O53: only group 0 decodes to CLS, and CLS is one update of the framebuffer after the fetch advance. -/
theorem clearTurnsEveryPixelOff : Obligations.ClearTurnsEveryPixelOff := by
  refine ⟨decodeWord_eq_cls_iff, fun s => ⟨_, exec_cls s, fun x y => ?_, rfl, frame_advance_setFb s _⟩⟩
  rw [State.setFb_pixel, Framebuffer.pixel_blank]

end Sys2Proof.Machine
end

section
/-! SUPPORT. Lemmas of the delay timer: what the words of FX07 and FX15 decode to, the frame of an update of DT, and the
one update each of the two makes. -/

namespace Sys2Proof

variable (x : Reg)

/-! ### The words of FX07 and FX15 (30_encoding.md R67) -/

theorem decodeWord_ldVxDt : decodeWord (wordXnn 0xF x 0x07) = .ok (.ldVxDt x) :=
  decodeWord_of_groupF x fun w hnn => by simp [decodeGroupF, hnn]

theorem decodeWord_ldDtVx : decodeWord (wordXnn 0xF x 0x15) = .ok (.ldDtVx x) :=
  decodeWord_of_groupF x fun w hnn => by simp [decodeGroupF, hnn]

end Sys2Proof

namespace Sys2Proof.Machine

/-! ### Updates of DT -/

theorem frame_setDt (s : State) (u : Byte) : Frame s (s.setDt u) fun p => p = .dt := by
  intro p hp
  cases p with
  | dt => exact absurd rfl hp
  | _ => rfl

theorem frame_advance_setDt (s : State) (u : Byte) : Frame s (s.advance.setDt u) fun p => p = .dt ∨ p = .pc :=
  ((frame_setPc s _).trans (frame_setDt _ u)).mono fun _ => Or.symm

/-- FX07 completes as an ALU instruction without a flag does, its result being DT. -/
theorem exec_ldVxDt (s : State) (x : Reg) : exec (.ldVxDt x) s = writeResult x s.dt s := rfl

theorem exec_ldDtVx (s : State) (x : Reg) : exec (.ldDtVx x) s = .next (s.advance.setDt (s.reg x)) := rfl

/-- Settles O57: after the fetch advance FX07 is one register write and FX15 one update of DT. -/
theorem delayTimerIsReadAndSet : Obligations.DelayTimerIsReadAndSet := by
  intro s x
  refine ⟨⟨decodeWord_ldVxDt x, decodeWord_ldDtVx x⟩, ?ldVxDt, ?ldDtVx⟩
  case ldVxDt => exact completes_of_writeResult (exec_ldVxDt s x)
  case ldDtVx => exact ⟨_, exec_ldDtVx s x, rfl, rfl, frame_advance_setDt s _⟩

end Sys2Proof.Machine
end

section
/-! SUPPORT. The round trip of the codec and the unknown words: each instruction's own word decodes to it, a word that
decodes is put together again from its fields, and the words the table matches are those that decode (spec
30_encoding.md R60 to R69). -/

namespace Sys2Proof

variable (w : Word) (x y : Reg) (nn : Byte) (addr : Addr)

/-! ### The words of the remaining instructions -/

theorem decodeWord_jp : decodeWord (wordNnn 0x1 addr) = .ok (.jp addr) := by
  obtain ⟨hop, hnnn⟩ := wordNnn_fields 0x1 addr
  rw [decodeWord, hop, hnnn]; rfl

theorem decodeWord_call : decodeWord (wordNnn 0x2 addr) = .ok (.call addr) := by
  obtain ⟨hop, hnnn⟩ := wordNnn_fields 0x2 addr
  rw [decodeWord, hop, hnnn]; rfl

theorem decodeWord_jpV0 : decodeWord (wordNnn 0xB addr) = .ok (.jpV0 addr) := by
  obtain ⟨hop, hnnn⟩ := wordNnn_fields 0xB addr
  rw [decodeWord, hop, hnnn]; rfl

theorem decodeWord_rnd : decodeWord (wordXnn 0xC x nn) = .ok (.rnd x nn) := by
  obtain ⟨hop, hx, hnn⟩ := wordXnn_fields 0xC x nn
  rw [decodeWord, hop, hx, hnn]; rfl

/-- The row count comes back because it fits its 4-bit field (30_encoding.md R62). -/
theorem decodeWord_drw {n : Nat} (h : n < 16) : decodeWord (wordXyn 0xD x y (BitVec.ofNat 4 n)) = .ok (.drw x y n) := by
  obtain ⟨hop, hx, hy, hn⟩ := wordXyn_fields 0xD (BitVec.ofNat 4 n) x y
  have hcount : (BitVec.ofNat 4 n).toNat = n := Nat.mod_eq_of_lt h
  rw [decodeWord, hop, hx, hy, hn, hcount]; rfl

theorem decodeWord_of_groupE {nn : Byte} {form : Reg → Instr}
    (h : ∀ w, nnField w = nn → decodeGroupE w = .ok (form (xField w))) :
    decodeWord (wordXnn 0xE x nn) = .ok (form x) := by
  obtain ⟨hop, hx, hnn⟩ := wordXnn_fields 0xE x nn
  have hgroup : decodeWord (wordXnn 0xE x nn) = decodeGroupE (wordXnn 0xE x nn) := by
    rw [decodeWord, hop]; rfl
  rw [hgroup, h _ hnn, hx]

theorem decodeWord_skp : decodeWord (wordXnn 0xE x 0x9E) = .ok (.skp x) :=
  decodeWord_of_groupE x fun w hnn => by simp [decodeGroupE, hnn]

theorem decodeWord_sknp : decodeWord (wordXnn 0xE x 0xA1) = .ok (.sknp x) :=
  decodeWord_of_groupE x fun w hnn => by simp [decodeGroupE, hnn]

theorem decodeWord_ldVxK : decodeWord (wordXnn 0xF x 0x0A) = .ok (.ldVxK x) :=
  decodeWord_of_groupF x fun w hnn => by simp [decodeGroupF, hnn]

theorem decodeWord_ldStVx : decodeWord (wordXnn 0xF x 0x18) = .ok (.ldStVx x) :=
  decodeWord_of_groupF x fun w hnn => by simp [decodeGroupF, hnn]

theorem decodeWord_addIVx : decodeWord (wordXnn 0xF x 0x1E) = .ok (.addIVx x) :=
  decodeWord_of_groupF x fun w hnn => by simp [decodeGroupF, hnn]

theorem decodeWord_ldBVx : decodeWord (wordXnn 0xF x 0x33) = .ok (.ldBVx x) :=
  decodeWord_of_groupF x fun w hnn => by simp [decodeGroupF, hnn]

theorem decodeWord_storeRegs : decodeWord (wordXnn 0xF x 0x55) = .ok (.storeRegs x) :=
  decodeWord_of_groupF x fun w hnn => by simp [decodeGroupF, hnn]

theorem decodeWord_loadRegs : decodeWord (wordXnn 0xF x 0x65) = .ok (.loadRegs x) :=
  decodeWord_of_groupF x fun w hnn => by simp [decodeGroupF, hnn]

/-- The word of a well-formed instruction decodes to it: the 34 rows together. -/
theorem decodeWord_encode {i : Instr} (h : i.wf = true) : decodeWord (encode i) = .ok i := by
  cases i with
  | cls => rfl
  | ret => rfl
  | jp addr => exact decodeWord_jp addr
  | call addr => exact decodeWord_call addr
  | seImm x nn => exact decodeWord_seImm x nn
  | sneImm x nn => exact decodeWord_sneImm x nn
  | seReg x y => exact decodeWord_seReg x y
  | ldImm x nn => exact decodeWord_ldImm x nn
  | addImm x nn => exact decodeWord_addImm x nn
  | ldReg x y => exact decodeWord_ldReg x y
  | orReg x y => exact decodeWord_orReg x y
  | andReg x y => exact decodeWord_andReg x y
  | xorReg x y => exact decodeWord_xorReg x y
  | addReg x y => exact decodeWord_addReg x y
  | subReg x y => exact decodeWord_subReg x y
  | shrReg x y => exact decodeWord_shrReg x y
  | subnReg x y => exact decodeWord_subnReg x y
  | shlReg x y => exact decodeWord_shlReg x y
  | sneReg x y => exact decodeWord_sneReg x y
  | ldI addr => exact decodeWord_ldI addr
  | jpV0 addr => exact decodeWord_jpV0 addr
  | rnd x nn => exact decodeWord_rnd x nn
  | drw x y n => exact decodeWord_drw x y (of_decide_eq_true h)
  | skp x => exact decodeWord_skp x
  | sknp x => exact decodeWord_sknp x
  | ldVxDt x => exact decodeWord_ldVxDt x
  | ldVxK x => exact decodeWord_ldVxK x
  | ldDtVx x => exact decodeWord_ldDtVx x
  | ldStVx x => exact decodeWord_ldStVx x
  | addIVx x => exact decodeWord_addIVx x
  | ldFVx x => exact decodeWord_ldFVx x
  | ldBVx x => exact decodeWord_ldBVx x
  | storeRegs x => exact decodeWord_storeRegs x
  | loadRegs x => exact decodeWord_loadRegs x

/-- Settles O1: the two bytes are the word of the instruction, which decodes to it. -/
theorem decodeOfEncodeIsTheInstruction : Obligations.DecodeOfEncodeIsTheInstruction := by
  intro i rest h
  simp only [encodeBytes, List.cons_append, List.nil_append, decode, wordOfBytes_of_bytes, decodeWord_encode h]

/-! ### A word from the fields the decoder tested -/

section
variable {w} {op n : BitVec 4} {nn}

theorem wordNnn_of_op (hop : opField w = op) : wordNnn op (nnnField w) = w := by
  rw [← hop, wordNnn_of_fields]

theorem wordXnn_of_op (hop : opField w = op) : wordXnn op (xField w) (nnField w) = w := by
  rw [← hop, wordXnn_of_fields]

theorem wordXnn_of_op_nn (hop : opField w = op) (hnn : nnField w = nn) : wordXnn op (xField w) nn = w := by
  rw [← hop, ← hnn, wordXnn_of_fields]

theorem wordXyn_of_op (hop : opField w = op) : wordXyn op (xField w) (yField w) (nField w) = w := by
  rw [← hop, wordXyn_of_fields]

theorem wordXyn_of_op_n (hop : opField w = op) (hn : nField w = n) : wordXyn op (xField w) (yField w) n = w := by
  rw [← hn, wordXyn_of_op hop]

end

/-! ### What the decoder answers -/

/-- The word decodes to a well-formed instruction whose encoding it is, or it is unknown by its own name. -/
def DecodesBackOrUnknown (w : Word) (d : Except DecodeError Instr) : Prop :=
  (∃ i, d = .ok i ∧ i.wf = true ∧ encode i = w) ∨ d = .error (.unknownInstruction w)

section
variable {w}

theorem DecodesBackOrUnknown.of_ok {i : Instr} (hwf : i.wf = true) (he : encode i = w) :
    DecodesBackOrUnknown w (.ok i) := .inl ⟨i, rfl, hwf, he⟩

theorem DecodesBackOrUnknown.unknown : DecodesBackOrUnknown w (.error (.unknownInstruction w)) := .inr rfl

/-- A test of the decoder: an instruction when it passes, the tests after it when not. -/
theorem DecodesBackOrUnknown.ite {c : Prop} [Decidable c] {i : Instr} {d : Except DecodeError Instr}
    (hwf : i.wf = true) (hok : c → encode i = w) (hd : DecodesBackOrUnknown w d) :
    DecodesBackOrUnknown w (if c then .ok i else d) := by
  split
  · exact .of_ok hwf (hok ‹c›)
  · exact hd

theorem decodeGroup0_spec : DecodesBackOrUnknown w (decodeGroup0 w) :=
  .ite rfl Eq.symm <| .ite rfl Eq.symm .unknown

theorem decodeGroup8_spec (hop : opField w = 0x8) : DecodesBackOrUnknown w (decodeGroup8 w) :=
  .ite rfl (wordXyn_of_op_n hop) <| .ite rfl (wordXyn_of_op_n hop) <| .ite rfl (wordXyn_of_op_n hop) <|
  .ite rfl (wordXyn_of_op_n hop) <| .ite rfl (wordXyn_of_op_n hop) <| .ite rfl (wordXyn_of_op_n hop) <|
  .ite rfl (wordXyn_of_op_n hop) <| .ite rfl (wordXyn_of_op_n hop) <| .ite rfl (wordXyn_of_op_n hop) .unknown

theorem decodeGroupE_spec (hop : opField w = 0xE) : DecodesBackOrUnknown w (decodeGroupE w) :=
  .ite rfl (wordXnn_of_op_nn hop) <| .ite rfl (wordXnn_of_op_nn hop) .unknown

theorem decodeGroupF_spec (hop : opField w = 0xF) : DecodesBackOrUnknown w (decodeGroupF w) :=
  .ite rfl (wordXnn_of_op_nn hop) <| .ite rfl (wordXnn_of_op_nn hop) <| .ite rfl (wordXnn_of_op_nn hop) <|
  .ite rfl (wordXnn_of_op_nn hop) <| .ite rfl (wordXnn_of_op_nn hop) <| .ite rfl (wordXnn_of_op_nn hop) <|
  .ite rfl (wordXnn_of_op_nn hop) <| .ite rfl (wordXnn_of_op_nn hop) <| .ite rfl (wordXnn_of_op_nn hop) .unknown

theorem decodeNeedsN0_spec {i : Instr} (hwf : i.wf = true) (he : nField w = 0x0 → encode i = w) :
    DecodesBackOrUnknown w (decodeNeedsN0 w i) := .ite hwf he .unknown

theorem drw_encodes (hop : opField w = 0xD) : encode (.drw (xField w) (yField w) (nField w).toNat) = w := by
  rw [encode, BitVec.ofNat_toNat, BitVec.setWidth_eq, wordXyn_of_op hop]

end

/-- The dispatch on op, said once (30_encoding.md R63). -/
theorem decodeWord_spec : DecodesBackOrUnknown w (decodeWord w) := by
  have op_eq {n : Nat} (h : (opField w).toNat = n) : opField w = BitVec.ofNat 4 n := by
    rw [← h, BitVec.ofNat_toNat, BitVec.setWidth_eq]
  have hlt := (opField w).isLt
  unfold decodeWord
  split
  case h_1 => exact decodeGroup0_spec
  case h_2 h | h_3 h | h_11 h | h_12 h => exact .of_ok rfl (wordNnn_of_op (op_eq h))
  case h_4 h | h_5 h | h_7 h | h_8 h | h_13 h => exact .of_ok rfl (wordXnn_of_op (op_eq h))
  case h_6 h | h_10 h => exact decodeNeedsN0_spec rfl (wordXyn_of_op_n (op_eq h))
  case h_9 h => exact decodeGroup8_spec (op_eq h)
  case h_14 h => exact .of_ok (decide_eq_true (nField w).isLt) (drw_encodes (op_eq h))
  case h_15 h => exact decodeGroupE_spec (op_eq h)
  case h_16 => exact decodeGroupF_spec (op_eq (n := 15) (by grind))

/-- Settles O2: the decoder assembles the word again from the fields it read. -/
theorem decodedWordEncodesBack : Obligations.DecodedWordEncodesBack := by
  intro w i h
  obtain ⟨i', hi', hwf, he⟩ | hu := decodeWord_spec w
  · cases hi'.symm.trans h; exact ⟨hwf, he⟩
  · cases hu.symm.trans h

/-! ### The rows of the opcode table -/

section
variable {w} {m v : Word} {op n : BitVec 4} {nn : Byte}

/-- A mask that covers a field keeps it. -/
theorem opField_of_masked (hm : opField m = 0xF) (h : w &&& m = v) : opField w = opField v := by
  have hand : opField (w &&& m) = opField w &&& opField m := BitVec.extractLsb'_and
  rw [← h, hand, hm]; exact BitVec.and_allOnes.symm

theorem nField_of_masked (hm : nField m = 0xF) (h : w &&& m = v) : nField w = nField v := by
  have hand : nField (w &&& m) = nField w &&& nField m := BitVec.extractLsb'_and
  rw [← h, hand, hm]; exact BitVec.and_allOnes.symm

theorem nnField_of_masked (hm : nnField m = 0xFF) (h : w &&& m = v) : nnField w = nnField v := by
  have hand : nnField (w &&& m) = nnField w &&& nnField m := BitVec.extractLsb'_and
  rw [← h, hand, hm]; exact BitVec.and_allOnes.symm

/-- Rows with mask F000: op is fixed. -/
theorem op_of_row (h : w &&& 0xF000 = v) (hop : opField v = op) : opField w = op :=
  (opField_of_masked rfl h).trans hop

/-- Rows with mask F00F: op and N are fixed, and X and Y are the operands. -/
theorem wordXyn_of_row (h : w &&& 0xF00F = v) (hop : opField v = op) (hn : nField v = n) :
    wordXyn op (xField w) (yField w) n = w :=
  wordXyn_of_op_n ((opField_of_masked rfl h).trans hop) ((nField_of_masked rfl h).trans hn)

/-- Rows with mask F0FF: op and NN are fixed, and X is the operand. -/
theorem wordXnn_of_row (h : w &&& 0xF0FF = v) (hop : opField v = op) (hnn : nnField v = nn) :
    wordXnn op (xField w) nn = w :=
  wordXnn_of_op_nn ((opField_of_masked rfl h).trans hop) ((nnField_of_masked rfl h).trans hnn)

/-- Rows with mask FFFF: the whole word is fixed. -/
theorem eq_of_row (h : w &&& 0xFFFF = v) : v = w := by rw [← h]; exact BitVec.and_allOnes

end

/-- A word that matches a row is the word of an instruction: the 34 rows, in the table's order. -/
theorem encodes_of_row {w : Word} {row : Word × Word} (hrow : row ∈ opcodeTable) (h : w &&& row.1 = row.2) :
    ∃ i, i.wf = true ∧ encode i = w := by
  simp only [opcodeTable, List.cons_append, List.nil_append, List.mem_cons, List.not_mem_nil, or_false] at hrow
  rcases hrow with rfl | rfl | rfl | rfl | rfl | rfl | rfl | rfl | rfl | rfl | rfl | rfl | rfl | rfl | rfl | rfl | rfl |
    rfl | rfl | rfl | rfl | rfl | rfl | rfl | rfl | rfl | rfl | rfl | rfl | rfl | rfl | rfl | rfl | rfl
  · exact ⟨.cls, rfl, eq_of_row h⟩
  · exact ⟨.ret, rfl, eq_of_row h⟩
  · exact ⟨.jp (nnnField w), rfl, wordNnn_of_op (op_of_row h rfl)⟩
  · exact ⟨.call (nnnField w), rfl, wordNnn_of_op (op_of_row h rfl)⟩
  · exact ⟨.seImm (xField w) (nnField w), rfl, wordXnn_of_op (op_of_row h rfl)⟩
  · exact ⟨.sneImm (xField w) (nnField w), rfl, wordXnn_of_op (op_of_row h rfl)⟩
  · exact ⟨.seReg (xField w) (yField w), rfl, wordXyn_of_row h rfl rfl⟩
  · exact ⟨.ldImm (xField w) (nnField w), rfl, wordXnn_of_op (op_of_row h rfl)⟩
  · exact ⟨.addImm (xField w) (nnField w), rfl, wordXnn_of_op (op_of_row h rfl)⟩
  · exact ⟨.ldReg (xField w) (yField w), rfl, wordXyn_of_row h rfl rfl⟩
  · exact ⟨.orReg (xField w) (yField w), rfl, wordXyn_of_row h rfl rfl⟩
  · exact ⟨.andReg (xField w) (yField w), rfl, wordXyn_of_row h rfl rfl⟩
  · exact ⟨.xorReg (xField w) (yField w), rfl, wordXyn_of_row h rfl rfl⟩
  · exact ⟨.addReg (xField w) (yField w), rfl, wordXyn_of_row h rfl rfl⟩
  · exact ⟨.subReg (xField w) (yField w), rfl, wordXyn_of_row h rfl rfl⟩
  · exact ⟨.shrReg (xField w) (yField w), rfl, wordXyn_of_row h rfl rfl⟩
  · exact ⟨.subnReg (xField w) (yField w), rfl, wordXyn_of_row h rfl rfl⟩
  · exact ⟨.shlReg (xField w) (yField w), rfl, wordXyn_of_row h rfl rfl⟩
  · exact ⟨.sneReg (xField w) (yField w), rfl, wordXyn_of_row h rfl rfl⟩
  · exact ⟨.ldI (nnnField w), rfl, wordNnn_of_op (op_of_row h rfl)⟩
  · exact ⟨.jpV0 (nnnField w), rfl, wordNnn_of_op (op_of_row h rfl)⟩
  · exact ⟨.rnd (xField w) (nnField w), rfl, wordXnn_of_op (op_of_row h rfl)⟩
  · exact ⟨.drw (xField w) (yField w) (nField w).toNat, decide_eq_true (nField w).isLt, drw_encodes (op_of_row h rfl)⟩
  · exact ⟨.skp (xField w), rfl, wordXnn_of_row h rfl rfl⟩
  · exact ⟨.sknp (xField w), rfl, wordXnn_of_row h rfl rfl⟩
  · exact ⟨.ldVxDt (xField w), rfl, wordXnn_of_row h rfl rfl⟩
  · exact ⟨.ldVxK (xField w), rfl, wordXnn_of_row h rfl rfl⟩
  · exact ⟨.ldDtVx (xField w), rfl, wordXnn_of_row h rfl rfl⟩
  · exact ⟨.ldStVx (xField w), rfl, wordXnn_of_row h rfl rfl⟩
  · exact ⟨.addIVx (xField w), rfl, wordXnn_of_row h rfl rfl⟩
  · exact ⟨.ldFVx (xField w), rfl, wordXnn_of_row h rfl rfl⟩
  · exact ⟨.ldBVx (xField w), rfl, wordXnn_of_row h rfl rfl⟩
  · exact ⟨.storeRegs (xField w), rfl, wordXnn_of_row h rfl rfl⟩
  · exact ⟨.loadRegs (xField w), rfl, wordXnn_of_row h rfl rfl⟩

/-- The word of every instruction matches its own row, one of the table's (Laws/PerInstr). -/
theorem encode_matches_row (i : Instr) : Laws.Encoding.Statement i := by
  cases i with
  | cls => exact Laws.Encoding.cls
  | ret => exact Laws.Encoding.ret
  | jp addr => exact Laws.Encoding.jp addr
  | call addr => exact Laws.Encoding.call addr
  | seImm x nn => exact Laws.Encoding.seImm x nn
  | sneImm x nn => exact Laws.Encoding.sneImm x nn
  | seReg x y => exact Laws.Encoding.seReg x y
  | ldImm x nn => exact Laws.Encoding.ldImm x nn
  | addImm x nn => exact Laws.Encoding.addImm x nn
  | ldReg x y => exact Laws.Encoding.ldReg x y
  | orReg x y => exact Laws.Encoding.orReg x y
  | andReg x y => exact Laws.Encoding.andReg x y
  | xorReg x y => exact Laws.Encoding.xorReg x y
  | addReg x y => exact Laws.Encoding.addReg x y
  | subReg x y => exact Laws.Encoding.subReg x y
  | shrReg x y => exact Laws.Encoding.shrReg x y
  | subnReg x y => exact Laws.Encoding.subnReg x y
  | shlReg x y => exact Laws.Encoding.shlReg x y
  | sneReg x y => exact Laws.Encoding.sneReg x y
  | ldI addr => exact Laws.Encoding.ldI addr
  | jpV0 addr => exact Laws.Encoding.jpV0 addr
  | rnd x nn => exact Laws.Encoding.rnd x nn
  | drw x y n => exact Laws.Encoding.drw x y n
  | skp x => exact Laws.Encoding.skp x
  | sknp x => exact Laws.Encoding.sknp x
  | ldVxDt x => exact Laws.Encoding.ldVxDt x
  | ldVxK x => exact Laws.Encoding.ldVxK x
  | ldDtVx x => exact Laws.Encoding.ldDtVx x
  | ldStVx x => exact Laws.Encoding.ldStVx x
  | addIVx x => exact Laws.Encoding.addIVx x
  | ldFVx x => exact Laws.Encoding.ldFVx x
  | ldBVx x => exact Laws.Encoding.ldBVx x
  | storeRegs x => exact Laws.Encoding.storeRegs x
  | loadRegs x => exact Laws.Encoding.loadRegs x

/-- Settles O3: the words the table matches are the words of instructions, which are the words that decode. -/
theorem unknownWordsMatchNoTableRow : Obligations.UnknownWordsMatchNoTableRow := by
  refine ⟨fun w e h => ?_, fun w => ⟨fun h row hrow hmatch => ?_, fun h => ?_⟩⟩
  · obtain ⟨i, hi, -⟩ | hu := decodeWord_spec w
    · cases hi.symm.trans h
    · cases hu.symm.trans h; rfl
  · obtain ⟨i, hwf, rfl⟩ := encodes_of_row hrow hmatch
    cases (decodeWord_encode hwf).symm.trans h
  · obtain ⟨i, -, -, rfl⟩ | hu := decodeWord_spec w
    · obtain ⟨hmem, hmatch⟩ := encode_matches_row i
      exact absurd hmatch (h _ hmem)
    · exact hu

/-- Settles O4: eleven fixed words, each run through the decoder. -/
theorem sampleWordsDecodeAsTheTableSays : Obligations.SampleWordsDecodeAsTheTableSays := by
  unfold Obligations.SampleWordsDecodeAsTheTableSays; decide

end Sys2Proof
end

section
/-! SUPPORT. What each instruction does, in two parts: its own check, which raises and writes nothing, and what it
leaves when the check passes, with its frame. Every later proof about an instruction goes through these. -/

namespace Sys2Proof.Machine

/-! ### Raising -/

section
variable (s : State) (k : FatalKind) (w : Option Word)

theorem frame_setFaultRecord (r : FaultRecord) : Frame s (s.setFaultRecord r) fun p => p = .faultRecord := by
  intro p hp
  cases p with
  | faultRecord => exact absurd rfl hp
  | _ => rfl

theorem frame_setExecState (e : ExecState) : Frame s (s.setExecState e) fun p => p = .execState := by
  intro p hp
  cases p with
  | execState => exact absurd rfl hp
  | _ => rfl

theorem raised_enterFaulted : Raised s (s.enterFaulted k w) k w :=
  ⟨rfl, rfl, ((frame_setFaultRecord s _).trans (frame_setExecState _ _)).mono fun _ => Or.symm⟩

end

/-! ### What an instruction leaves -/

/-- The picture and the hit of a draw of `n` rows at I (43_display.md R121). -/
def State.drawn (s : State) (x y : Reg) (n : Nat) : Framebuffer × Bool :=
  drawRows (s.reg x) (s.reg y) 0 ((List.range n).map fun k => s.mem.get (s.i.toNat + k)) (s.fb, false)

/-- The state an instruction leaves when its own check passes (`exec_of_check_passes`), without the check. -/
def completed (i : Instr) (s : State) : State :=
  match i with
  | .cls => s.advance.setFb Framebuffer.blank
  | .ret => (s.setStack s.stack.tail).setPc (s.stack.headD 0)
  | .jp addr => s.setPc (zextAddr addr)
  | .call addr => (s.setStack ((s.pc + 2) :: s.stack)).setPc (zextAddr addr)
  | .seImm x nn => s.setPc (if s.reg x = nn then s.pc + 4 else s.pc + 2)
  | .sneImm x nn => s.setPc (if s.reg x ≠ nn then s.pc + 4 else s.pc + 2)
  | .seReg x y => s.setPc (if s.reg x = s.reg y then s.pc + 4 else s.pc + 2)
  | .sneReg x y => s.setPc (if s.reg x ≠ s.reg y then s.pc + 4 else s.pc + 2)
  | .ldImm x nn => s.advance.setReg x nn
  | .addImm x nn => s.advance.setReg x (s.reg x + nn)
  | .ldReg x y => s.advance.setReg x (s.reg y)
  | .orReg x y => (s.advance.setReg x (s.reg x ||| s.reg y)).setReg vf 0
  | .andReg x y => (s.advance.setReg x (s.reg x &&& s.reg y)).setReg vf 0
  | .xorReg x y => (s.advance.setReg x (s.reg x ^^^ s.reg y)).setReg vf 0
  | .addReg x y => (s.advance.setReg x (s.reg x + s.reg y)).setReg vf (carryFlag (s.reg x) (s.reg y))
  | .subReg x y => (s.advance.setReg x (s.reg x - s.reg y)).setReg vf (noBorrowFlag (s.reg x) (s.reg y))
  | .subnReg x y => (s.advance.setReg x (s.reg y - s.reg x)).setReg vf (noBorrowFlag (s.reg y) (s.reg x))
  | .shrReg x y => (s.advance.setReg vf (shiftedOutRight (s.reg y))).setReg x (s.reg y >>> 1)
  | .shlReg x y => (s.advance.setReg vf (shiftedOutLeft (s.reg y))).setReg x (s.reg y <<< 1)
  | .rnd x nn => s.advance.setReg x (s.rnd &&& nn)
  | .ldI addr => s.advance.setI (zextAddr addr)
  | .jpV0 addr => s.setPc (s.targetV0 addr)
  | .drw x y n => (s.advance.setFb (s.drawn x y n).1).setReg vf (collisionFlag (s.drawn x y n).2)
  | .skp x => s.setPc (if s.keyOf (s.reg x) = some true then s.pc + 4 else s.pc + 2)
  | .sknp x => s.setPc (if s.keyOf (s.reg x) = some false then s.pc + 4 else s.pc + 2)
  | .ldVxDt x => s.advance.setReg x s.dt
  | .ldVxK x => (s.advance.setWake (zextNibble x)).setExecState .waitingForKey
  | .ldDtVx x => s.advance.setDt (s.reg x)
  | .ldStVx _ => s.advance
  | .addIVx x => s.advance.setI (BitVec.ofNat 16 (s.sumIVx x))
  | .ldFVx x => s.advance.setI (glyphAddr (s.reg x))
  | .ldBVx x => s.advance.setMem (s.mem.putBytes s.i.toNat (bcdDigits (s.reg x)))
  | .storeRegs x => (s.advance.setMem (s.mem.putBytes s.i.toNat (s.regsUpTo x))).bumpI x
  | .loadRegs x =>
    (s.advance.setRegsFrom 0 ((List.range (x.val + 1)).map fun k => s.mem.get (s.i.toNat + k))).bumpI x

/-- The meaning of an instruction as its own check and what it leaves. -/
def CheckedExec (i : Instr) (s : State) : Prop :=
  (∃ k, ownCheck i s = some k ∧ exec i s = raise k i s) ∨ (ownCheck i s = none ∧ exec i s = .next (completed i s))

section
variable (s : State) (x y : Reg)

theorem checkedExec_ret : CheckedExec .ret s := by
  cases h : s.stack with
  | nil =>
    have hpop : s.pop = none := State.pop_eq_none.mpr h
    exact .inl ⟨_, if_pos h, by simp only [exec, execRet, hpop]⟩
  | cons a rest =>
    have hpop : s.pop = some (a, s.setStack rest) := State.pop_eq_some.mpr ⟨rest, h, rfl⟩
    exact .inr ⟨if_neg (by simp [h]), by simp only [exec, execRet, hpop, completed, h]; rfl⟩

theorem checkedExec_call (addr : Addr) : CheckedExec (.call addr) s := by
  by_cases h : 16 ≤ s.stack.length
  · have hpush : s.advance.push s.advance.pc = none := State.push_eq_none.mpr h
    exact .inl ⟨_, if_pos h, by simp only [exec, execCall, hpush]⟩
  · have hpush : s.advance.push s.advance.pc = some (s.advance.setStack ((s.pc + 2) :: s.stack)) :=
      State.push_eq_some.mpr ⟨Nat.lt_of_not_le h, rfl⟩
    exact .inr ⟨if_neg h, by simp only [exec, execCall, hpush]; rfl⟩

theorem checkedExec_skp : CheckedExec (.skp x) s := by
  cases h : s.keyOf (s.reg x) with
  | none => exact .inl ⟨_, if_pos (State.keyOf_eq_none.mp h), by simp only [exec, execSkp, h]⟩
  | some p =>
    obtain ⟨hlt, -⟩ := State.keyOf_eq_some.mp h
    refine .inr ⟨if_neg (Nat.not_le.mpr hlt), ?_⟩
    simp only [exec, execSkp, h, State.advance_skipIf, completed, Option.some.injEq]

theorem checkedExec_sknp : CheckedExec (.sknp x) s := by
  cases h : s.keyOf (s.reg x) with
  | none => exact .inl ⟨_, if_pos (State.keyOf_eq_none.mp h), by simp only [exec, execSknp, h]⟩
  | some p =>
    obtain ⟨hlt, -⟩ := State.keyOf_eq_some.mp h
    refine .inr ⟨if_neg (Nat.not_le.mpr hlt), ?_⟩
    simp only [exec, execSknp, h, State.advance_skipIf, completed, Option.some.injEq, Bool.not_eq_true']

theorem checkedExec_addIVx : CheckedExec (.addIVx x) s := by
  by_cases h : s.sumIVx x > 0xFFFF
  · exact .inl ⟨_, if_pos h, by simp only [exec, execAddIVx, if_pos h]⟩
  · exact .inr ⟨if_neg h, by simp only [exec, execAddIVx, if_neg h]; rfl⟩

theorem checkedExec_ldBVx : CheckedExec (.ldBVx x) s := by
  cases h : s.advance.storeAtI (bcdDigits (s.reg x)) with
  | none =>
    obtain ⟨-, hout⟩ := State.storeAtI_eq_none.mp h
    exact .inl ⟨_, if_pos (Nat.le_of_lt_succ hout), by simp only [exec, execLdBVx, h]⟩
  | some t =>
    obtain ⟨hin | hin, rfl⟩ := State.storeAtI_eq_some.mp h
    · cases hin
    · exact .inr ⟨if_neg (Nat.not_le.mpr hin), by simp only [exec, execLdBVx, h]; rfl⟩

theorem checkedExec_storeRegs : CheckedExec (.storeRegs x) s := by
  cases h : s.advance.storeAtI (s.regsUpTo x) with
  | none =>
    obtain ⟨-, hout⟩ := State.storeAtI_eq_none.mp h
    rw [State.regsUpTo_length] at hout
    exact .inl ⟨_, if_pos (Nat.le_of_lt_succ hout), by simp only [exec, execStoreRegs, h]⟩
  | some t =>
    obtain ⟨hin, rfl⟩ := State.storeAtI_eq_some.mp h
    rw [State.regsUpTo_length] at hin
    have hin' : s.i.toNat + x.val < 0x1000 := hin.resolve_left (Nat.succ_ne_zero _)
    exact .inr ⟨if_neg (Nat.not_le.mpr hin'), by simp only [exec, execStoreRegs, h]; rfl⟩

theorem checkedExec_loadRegs : CheckedExec (.loadRegs x) s := by
  cases h : s.loadAtI (x.val + 1) with
  | none =>
    obtain ⟨-, hout⟩ := State.loadAtI_eq_none.mp h
    exact .inl ⟨_, if_pos (Nat.le_of_lt_succ hout), by simp only [exec, execLoadRegs, h]⟩
  | some bytes =>
    obtain ⟨hin, rfl⟩ := State.loadAtI_eq_some.mp h
    have hin' : s.i.toNat + x.val < 0x1000 := hin.resolve_left (Nat.succ_ne_zero _)
    exact .inr ⟨if_neg (Nat.not_le.mpr hin'), by simp only [exec, execLoadRegs, h]; rfl⟩

/-- The range check of a draw fails when there is a row and the last one is out of memory (43_display.md R126). -/
theorem checkedExec_drw (n : Nat) : CheckedExec (.drw x y n) s := by
  cases h : s.loadAtI n with
  | none =>
    have hout := State.loadAtI_eq_none.mp h
    exact .inl ⟨_, if_pos (by omega), by simp only [exec, execDrw, h]⟩
  | some rows =>
    obtain ⟨hin, rfl⟩ := State.loadAtI_eq_some.mp h
    exact .inr ⟨if_neg (by omega), by simp only [exec, execDrw, h]; rfl⟩

end

/-- Every instruction is its own check and what it leaves. The instructions that check nothing are so by definition. -/
theorem checkedExec (i : Instr) (s : State) : CheckedExec i s := by
  cases i with
  | ret => exact checkedExec_ret s
  | call addr => exact checkedExec_call s addr
  | seImm x nn => exact .inr ⟨rfl, exec_seImm s x nn⟩
  | sneImm x nn => exact .inr ⟨rfl, exec_sneImm s x nn⟩
  | seReg x y => exact .inr ⟨rfl, exec_seReg s x y⟩
  | sneReg x y => exact .inr ⟨rfl, exec_sneReg s x y⟩
  | drw x y n => exact checkedExec_drw s x y n
  | skp x => exact checkedExec_skp s x
  | sknp x => exact checkedExec_sknp s x
  | addIVx x => exact checkedExec_addIVx s x
  | ldBVx x => exact checkedExec_ldBVx s x
  | storeRegs x => exact checkedExec_storeRegs s x
  | loadRegs x => exact checkedExec_loadRegs s x
  | _ => exact .inr ⟨rfl, rfl⟩

section
variable {i : Instr} {s : State}

theorem exec_of_check_fails {k : FatalKind} (h : ownCheck i s = some k) :
    exec i s = .next (s.enterFaulted k (some (encode i))) := by
  obtain ⟨k', hk', hexec⟩ | ⟨hnone, -⟩ := checkedExec i s
  · cases hk'.symm.trans h; exact hexec
  · cases hnone.symm.trans h

theorem exec_of_check_passes (h : ownCheck i s = none) : exec i s = .next (completed i s) := by
  obtain ⟨k, hk, -⟩ | ⟨-, hexec⟩ := checkedExec i s
  · cases hk.symm.trans h
  · exact hexec

/-- The inversion of `exec`. -/
theorem exec_cases {t : State} (h : exec i s = .next t) :
    (∃ k, ownCheck i s = some k ∧ t = s.enterFaulted k (some (encode i))) ∨
    (ownCheck i s = none ∧ t = completed i s) := by
  cases hc : ownCheck i s with
  | none => exact .inr ⟨rfl, next_inj ((exec_of_check_passes hc).symm.trans h)⟩
  | some k => exact .inl ⟨k, rfl, next_inj ((exec_of_check_fails hc).symm.trans h)⟩

end

/-- Settles O9: an instruction whose check fails enters Faulted and does nothing else. -/
theorem ownCheckRaisesItsKind : Obligations.OwnCheckRaisesItsKind := fun i s k h =>
  ⟨_, exec_of_check_fails h, raised_enterFaulted s k (some (encode i))⟩

/-! ### The frames of what is written -/

section
variable (s : State)

theorem frame_setStack (l : List Word) : Frame s (s.setStack l) fun p => p = .stack := by
  intro p hp
  cases p with
  | stack => exact absurd rfl hp
  | _ => rfl

theorem frame_setWake (u : Byte) : Frame s (s.setWake u) fun p => p = .wake := by
  intro p hp
  cases p with
  | wake => exact absurd rfl hp
  | _ => rfl

/-- A multi-byte store changes what its own addresses read as, and nothing else. -/
theorem frame_putBytes (a : Nat) (us : List Byte) :
    Frame s (s.setMem (s.mem.putBytes a us)) fun p => ∃ k, k < us.length ∧ p = .mem (a + k) := by
  intro p hp
  cases p with
  | mem b =>
    have hb : ¬ (a ≤ b ∧ b < a + us.length) := fun h => hp ⟨b - a, by omega, congrArg Part.mem (by omega)⟩
    simp only [Part.same, State.setMem_mem, Memory.read, Memory.get_putBytes, if_neg hb]
  | _ => rfl

theorem frame_setRegsFrom (us : List Byte) :
    Frame s (s.setRegsFrom 0 us) fun p => ∃ r : Reg, r.val < us.length ∧ p = .reg r := by
  intro p hp
  cases p with
  | reg r =>
    have hr : ¬ (0 ≤ r.val ∧ r.val < 0 + us.length) := fun h => hp ⟨r, by omega, rfl⟩
    exact (State.setRegsFrom_reg s 0 us r).trans (if_neg hr)
  | _ => simp [Part.same]

theorem frame_setPc_setStack (l : List Word) (a : Word) :
    Frame s ((s.setStack l).setPc a) fun p => p = .pc ∨ p = .stack :=
  ((frame_setStack s l).trans (frame_setPc _ a)).mono fun _ => Or.symm

theorem frame_advance_putBytes (a : Nat) (us : List Byte) :
    Frame s (s.advance.setMem (s.mem.putBytes a us)) fun p => p = .pc ∨ ∃ k, k < us.length ∧ p = .mem (a + k) :=
  (frame_setPc s _).trans (frame_putBytes s.advance a us)

end

/-- What an instruction leaves differs from the state before it within the instruction's frame. -/
theorem completed_frame (i : Instr) (s : State) : Frame s (completed i s) (mayWrite i s) := by
  cases i with
  | cls => exact frame_advance_setFb s _
  | ret => exact frame_setPc_setStack s _ _
  | call addr => exact frame_setPc_setStack s _ _
  | jp addr | jpV0 addr => exact (frame_setPc s _).mono fun _ => Or.inl
  | seImm x nn | sneImm x nn | seReg x y | sneReg x y | skp x | sknp x | ldStVx x =>
    exact (frame_setPc s _).mono fun _ => Or.inl
  | ldImm x nn | addImm x nn | ldReg x y | rnd x nn | ldVxDt x =>
    exact (frame_advance_setReg s x _).mono fun _ => Or.symm
  | orReg x y | andReg x y | xorReg x y | addReg x y | subReg x y | subnReg x y =>
    exact (frame_advance_setReg_setReg s x vf _ _).mono fun p (h : p = .reg x ∨ p = .reg vf ∨ p = .pc) =>
      show p = .pc ∨ p = .reg x ∨ p = .reg vf by tauto
  | shrReg x y | shlReg x y =>
    exact (frame_advance_setReg_setReg s vf x _ _).mono fun p (h : p = .reg vf ∨ p = .reg x ∨ p = .pc) =>
      show p = .pc ∨ p = .reg x ∨ p = .reg vf by tauto
  | ldI addr | addIVx x | ldFVx x => exact (frame_advance_setI s _).mono fun _ => Or.symm
  | ldDtVx x => exact (frame_advance_setDt s _).mono fun _ => Or.symm
  | ldVxK x =>
    exact (((frame_setPc s _).trans (frame_setWake _ _)).trans (frame_setExecState _ _)).mono fun _ => or_assoc.mp
  | drw x y n =>
    exact ((frame_advance_setFb s _).trans (frame_setReg _ vf _)).mono fun p h =>
      show p = .pc ∨ p = .reg vf ∨ ∃ x y, p = .pixel x y by tauto
  | ldBVx x => exact frame_advance_putBytes s s.i.toNat (bcdDigits (s.reg x))
  | storeRegs x =>
    refine ((frame_advance_putBytes s s.i.toNat (s.regsUpTo x)).trans (frame_setI _ _)).mono ?_
    rintro p ((hpc | ⟨k, hk, hmem⟩) | hi)
    · exact .inl hpc
    · exact .inr (.inr ⟨k, Nat.le_of_lt_succ (by simpa using hk), hmem⟩)
    · exact .inr (.inl hi)
  | loadRegs x =>
    refine (((frame_setPc s _).trans (frame_setRegsFrom s.advance _)).trans (frame_setI _ _)).mono ?_
    rintro p ((hpc | ⟨r, hr, hreg⟩) | hi)
    · exact .inl hpc
    · exact .inr (.inr ⟨r, Nat.le_of_lt_succ (by simpa using hr), hreg⟩)
    · exact .inr (.inl hi)

/-- What an instruction leaves of a part outside its frame. -/
theorem completed_same {i : Instr} {s : State} {p : Part} (h : ¬ mayWrite i s p) : p.same s (completed i s) :=
  completed_frame i s p h

/-- No instruction writes FAULT when its check passes. -/
theorem completed_faultRecord (i : Instr) (s : State) : (completed i s).faultRecord = s.faultRecord :=
  completed_same (p := .faultRecord) (by cases i <;> simp [mayWrite])

/-- FX0A alone changes EXEC when its check passes. -/
theorem completed_execState (i : Instr) (s : State) :
    (completed i s).execState = s.execState ∨
      ((∃ x, i = .ldVxK x) ∧ (completed i s).execState = .waitingForKey) := by
  by_cases hi : ∃ x, i = .ldVxK x
  · obtain ⟨x, rfl⟩ := hi
    exact .inr ⟨⟨x, rfl⟩, rfl⟩
  · exact .inl (completed_same (p := .execState) (by cases i <;> simp_all [mayWrite]))

/-- Settles O10: an instruction whose check passes leaves what `completed` says. -/
theorem everyInstructionCompletesWithinItsFrame : Obligations.EveryInstructionCompletesWithinItsFrame := fun i s h =>
  ⟨_, exec_of_check_passes h, completed_faultRecord i s, completed_execState i s, completed_frame i s⟩

end Sys2Proof.Machine
end

section
/-! SUPPORT. The statements about one instruction: each is its own check decided by the hypothesis, what the instruction
then leaves (`completed`), and its frame (`completed_frame`). -/

namespace Sys2Proof.Machine

/-! ### Control flow -/

/-- Settles O40: the write that comes last decides VF (41_alu.md R103). -/
theorem flagRegisterAsDestination : Obligations.FlagRegisterAsDestination := by
  intro s y nn
  refine ⟨⟨_, exec_of_check_passes rfl, ?addImm⟩, ⟨_, exec_of_check_passes rfl, ?orReg⟩,
    ⟨_, exec_of_check_passes rfl, ?andReg⟩, ⟨_, exec_of_check_passes rfl, ?xorReg⟩,
    ⟨_, exec_of_check_passes rfl, ?addReg⟩, ⟨_, exec_of_check_passes rfl, ?subReg⟩,
    ⟨_, exec_of_check_passes rfl, ?subnReg⟩, ⟨_, exec_of_check_passes rfl, ?shrReg⟩,
    ⟨_, exec_of_check_passes rfl, ?shlReg⟩⟩
  all_goals simp only [completed, State.setReg_reg, if_true]
  case addReg => have hlt := (s.reg vf).isLt; rw [carryFlag_toNat]; split <;> omega
  case subReg | subnReg => simp [noBorrowFlag, flagOf]
  case shrReg => exact byte_shiftRight_one_toNat _
  case shlReg => exact byte_shiftLeft_one_toNat _

/-- Settles O41: the jump is one update of pc. -/
theorem jumpGoesToItsAddress : Obligations.JumpGoesToItsAddress := fun s addr =>
  ⟨_, exec_of_check_passes rfl, zextAddr_toNat addr, frame_setPc s _⟩

/-- The sum of a 12-bit address and a byte fits 16 bits. -/
theorem State.targetV0_toNat (s : State) (addr : Addr) : (s.targetV0 addr).toNat = addr.toNat + (s.reg 0).toNat := by
  have haddr := addr.isLt
  have hreg := (s.reg 0).isLt
  have hzext : (zextByte (s.reg 0)).toNat = (s.reg 0).toNat := BitVec.toNat_setWidth_of_le (by decide)
  rw [State.targetV0, BitVec.toNat_add, zextAddr_toNat, hzext]
  omega

/-- Settles O43: the sum of the address and V0 does not wrap. -/
theorem jumpWithOffsetAddsV0 : Obligations.JumpWithOffsetAddsV0 := fun s addr =>
  ⟨_, exec_of_check_passes rfl, s.targetV0_toNat addr, frame_setPc s _⟩

/-- Settles O44: the depth of the stack decides the check of the call. -/
theorem callPushesTheReturnAddress : Obligations.CallPushesTheReturnAddress := fun s addr =>
  ⟨fun h => ⟨_, exec_of_check_passes (if_neg (Nat.not_le.mpr h)), rfl, zextAddr_toNat addr, completed_frame _ s⟩,
    fun h => ⟨_, exec_of_check_fails (if_pos h.ge), raised_enterFaulted s _ _⟩⟩

theorem ownCheck_ret_of_cons {s : State} {a : Word} {rest : List Word} (h : s.stack = a :: rest) :
    ownCheck .ret s = none := if_neg (by simp [h])

/-- Settles O45: whether the stack is empty decides the check of the return. -/
theorem returnPopsTheTopEntry : Obligations.ReturnPopsTheTopEntry := by
  refine fun s => ⟨fun a rest h => ?_, fun h => ⟨_, exec_of_check_fails (if_pos h), raised_enterFaulted s _ _⟩⟩
  refine ⟨_, exec_of_check_passes (ownCheck_ret_of_cons h), ?_, ?_, completed_frame _ s⟩
  · show s.stack.headD 0 = a
    rw [h]; rfl
  · show s.stack.tail = rest
    rw [h]; rfl

/-- Settles O46: the return finds the entry the call pushed, and takes it off again. -/
theorem callThenReturnComesBack : Obligations.CallThenReturnComesBack := by
  intro s addr h
  have hpushed : (completed (.call addr) s).stack = (s.pc + 2) :: s.stack := rfl
  refine ⟨_, _, exec_of_check_passes (if_neg (Nat.not_le.mpr h)),
    exec_of_check_passes (ownCheck_ret_of_cons hpushed), rfl, ?_⟩
  intro p hp
  cases p with
  | pc => exact absurd rfl hp
  | _ => rfl

/-! ### The address register and memory -/

/-- Settles O48: the sum, as a number, decides the check of FX1E. -/
theorem addToAddressRegister : Obligations.AddToAddressRegister := by
  refine fun s x => ⟨fun h => ?_, fun h => ⟨_, exec_of_check_fails (if_pos h), raised_enterFaulted s _ _⟩⟩
  refine completes_of_setI (exec_of_check_passes (if_neg (Nat.not_lt.mpr h))) ?_
  exact Nat.mod_eq_of_lt (Nat.lt_succ_of_le h)

/-- A multi-byte store within memory is read back byte by byte. -/
theorem Memory.read_putBytes (m : Memory) {a k : Nat} {us : List Byte} (hk : k < us.length)
    (hin : a + us.length ≤ 0x1000) : (m.putBytes a us).read (a + k) = us[k]? := by
  rw [Memory.read_lt _ _ (by omega), Memory.get_putBytes, if_pos (by omega), Nat.add_sub_cancel_left,
    List.getElem?_eq_getElem hk, List.getD_eq_getElem _ _ hk]

theorem State.regsUpTo_getElem? (s : State) {x k : Reg} (h : k ≤ x) : (s.regsUpTo x)[k.val]? = some (s.reg k) := by
  have hk : k.val < (s.regsUpTo x).length := by rw [State.regsUpTo_length]; exact Nat.lt_succ_of_le h
  rw [← State.regsUpTo_getD s x k h, List.getD_eq_getElem _ _ hk, List.getElem?_eq_getElem hk]

/-- The post-increment of FX55 and FX65 does not wrap when the last byte is in memory. -/
theorem State.bumpI_toNat (s : State) {x : Reg} (h : s.i.toNat + x.val < 0x1000) :
    (s.bumpI x).i.toNat = s.i.toNat + x.val + 1 := by
  have hx := x.isLt
  rw [State.bumpI_eq, State.setI_i, BitVec.toNat_add, BitVec.toNat_ofNat]
  omega

/-- The decimal digits of a byte (42_index_memory.md R113). -/
theorem bcdDigits_spec (u : Byte) :
    ∃ d0 d1 d2 : Byte, bcdDigits u = [d0, d1, d2] ∧ d0.toNat ≤ 2 ∧ d1.toNat ≤ 9 ∧ d2.toNat ≤ 9 ∧
      100 * d0.toNat + 10 * d1.toNat + d2.toNat = u.toNat := by
  have hu := u.isLt
  refine ⟨_, _, _, rfl, ?_⟩
  simp only [BitVec.toNat_ofNat]
  omega

/-- Settles O49: the store at I puts the three digits of VX. -/
theorem decimalDigitsAreStored : Obligations.DecimalDigitsAreStored := by
  refine fun s x => ⟨fun h => ?_, fun h =>
    ⟨_, exec_of_check_fails (if_pos (Nat.add_le_add_right h 2)), raised_enterFaulted s _ _⟩⟩
  obtain ⟨d0, d1, d2, hdigits, h0, h1, h2, hsum⟩ := bcdDigits_spec (s.reg x)
  have hread {k : Nat} (hk : k < 3) : (completed (.ldBVx x) s).mem.read (s.i.toNat + k) = [d0, d1, d2][k]? := by
    rw [← hdigits]
    exact s.mem.read_putBytes hk (by rw [bcdDigits_length]; omega)
  exact ⟨_, d0, d1, d2, exec_of_check_passes (if_neg (by omega)), hread (k := 0) (by decide),
    hread (k := 1) (by decide), hread (k := 2) (by decide), h0, h1, h2, hsum, rfl, completed_frame _ s⟩

/-- Settles O50: the store at I puts V0 to VX. -/
theorem registersAreStoredAtI : Obligations.RegistersAreStoredAtI := by
  refine fun s x => ⟨fun h => ?_, fun h => ⟨_, exec_of_check_fails (if_pos h), raised_enterFaulted s _ _⟩⟩
  refine ⟨_, exec_of_check_passes (if_neg (Nat.not_le.mpr h)), fun k hk => ?_, State.bumpI_toNat _ h, rfl,
    completed_frame _ s⟩
  have hlen := s.regsUpTo_length x
  rw [← s.regsUpTo_getElem? hk]
  exact s.mem.read_putBytes (by rw [hlen]; exact Nat.lt_succ_of_le hk) (by omega)

theorem completed_loadRegs_reg (s : State) {x k : Reg} (hk : k ≤ x) :
    (completed (.loadRegs x) s).reg k = s.mem.get (s.i.toNat + k.val) := by
  have hlt : k.val < x.val + 1 := Nat.lt_succ_of_le hk
  simp only [completed, State.bumpI_eq, State.setI_reg, State.setRegsFrom_reg, List.length_map, List.length_range]
  rw [if_pos (by omega), List.getD_eq_getElem _ _ (by simpa using hlt)]
  simp

/-- Settles O51: each register gets the byte at its offset from I. -/
theorem registersAreLoadedFromI : Obligations.RegistersAreLoadedFromI := by
  refine fun s x => ⟨fun h => ?_, fun h => ⟨_, exec_of_check_fails (if_pos h), raised_enterFaulted s _ _⟩⟩
  refine ⟨_, exec_of_check_passes (if_neg (Nat.not_le.mpr h)), fun k hk => ?_, ?_, by simp [completed],
    completed_frame _ s⟩
  · have hk' : k.val ≤ x.val := hk
    rw [completed_loadRegs_reg s hk, State.dataAddr, Memory.read_lt _ _ (by omega)]
  · exact (State.bumpI_toNat _ (by simpa using h)).trans (by simp)

/-- Settles O52: what is loaded at each offset from I is what was stored there (O50 and O51). -/
theorem storedRegistersLoadBack : Obligations.StoredRegistersLoadBack := by
  intro s t u x hin hst hmem hi
  obtain ⟨t', ht', hstored, hti, -⟩ := (registersAreStoredAtI s x).1 hin
  cases next_inj (ht'.symm.trans hst)
  obtain ⟨u', hu', hloaded, hui, -⟩ := (registersAreLoadedFromI u x).1 (by rwa [hi])
  refine ⟨u', hu', BitVec.eq_of_toNat_eq (by rw [hui, hti, hi]), fun k hk => Option.some.inj ?_⟩
  calc some (u'.reg k) = u.mem.read (u.dataAddr k.val) := hloaded k hk
    _ = t.mem.read (s.dataAddr k.val) := by rw [hmem, State.dataAddr, hi, State.dataAddr]
    _ = some (s.reg k) := hstored k hk

/-- Settles O23: the bytes at pc are two of those FX55 has stored (O50). -/
theorem storedWordIsFetchedNext : Obligations.StoredWordIsFetchedNext := by
  intro s t x k k' hexec hlive hk' hle hpc
  have hle' : k'.val ≤ x.val := hle
  by_cases hin : s.i.toNat + x.val < 0x1000
  · obtain ⟨t', ht', hstored, -⟩ := (registersAreStoredAtI s x).1 hin
    cases next_inj (ht'.symm.trans hexec)
    have hhi : t.mem.read t.pc.toNat = some (s.reg k) := by
      rw [hpc]; exact hstored k (Fin.le_def.mpr (by omega))
    have hlo : t.mem.read (t.pc.toNat + 1) = some (s.reg k') := by
      rw [hpc, Nat.add_assoc, ← hk']; exact hstored k' hle
    simp only [State.fetch, hhi, hlo, wordOfBytes]
  · obtain ⟨t', ht', hfaulted, -⟩ := (registersAreStoredAtI s x).2 (Nat.not_lt.mp hin)
    cases next_inj (ht'.symm.trans hexec)
    exact absurd hfaulted hlive

/-! ### Display -/

/-- A bit of the sprite of `n` rows at I falls on the pixel, wrapped per pixel (43_display.md R122, R123). -/
def SpriteOn (s : State) (x y : Reg) (n : Nat) (px : Fin Config.fbWidth) (py : Fin Config.fbHeight) : Prop :=
  ∃ r c row, r < n ∧ c < 8 ∧ s.mem.read (s.dataAddr r) = some row ∧ row.getLsbD (7 - c) = true ∧
    px.val = ((s.reg x).toNat + c) % 64 ∧ py.val = ((s.reg y).toNat + r) % 32

section
variable {s : State} {n : Nat} (x y : Reg)

theorem drawn_pixel (h : n = 0 ∨ s.i.toNat + n ≤ 0x1000) (px : Fin Config.fbWidth) (py : Fin Config.fbHeight) :
    (s.drawn x y n).1.pixel px py = true ↔ s.pixel px py = true ∨ SpriteOn s x y n px py := by
  have hread {r : Nat} (hr : r < n) : s.mem.read (s.dataAddr r) = some (s.mem.get (s.i.toNat + r)) := by
    have hin : s.i.toNat + r < 0x1000 := by omega
    exact Memory.read_lt _ _ hin
  have hrow {r : Nat} (hr : r < n) :
      ((List.range n).map fun k => s.mem.get (s.i.toNat + k)).getD r 0 = s.mem.get (s.i.toNat + r) := by
    rw [List.getD_eq_getElem _ _ (by simpa using hr)]; simp
  rw [State.drawn, drawRows_pixel, List.length_map, List.length_range]
  refine or_congr_right ⟨?_, ?_⟩
  · rintro ⟨r, c, hr, hc, hbit, hx, hy⟩
    rw [hrow hr] at hbit
    rw [Nat.zero_add] at hy
    exact ⟨r, c, _, hr, hc, hread hr, hbit, congrArg Fin.val hx, congrArg Fin.val hy⟩
  · rintro ⟨r, c, row, hr, hc, hmem, hbit, hx, hy⟩
    cases (hread hr).symm.trans hmem
    refine ⟨r, c, hr, hc, ?_, Fin.ext hx, Fin.ext ?_⟩
    · rw [hrow hr]; exact hbit
    · rw [Nat.zero_add]; exact hy

/-- The hit of a draw says whether a pixel turned on. -/
theorem drawn_hit :
    (s.drawn x y n).2 = true ↔ ∃ px py, s.pixel px py = false ∧ (s.drawn x y n).1.pixel px py = true := by
  obtain ⟨-, hhit⟩ := drawRows_composed (s.fb, false) (s.reg x) (s.reg y) 0
    ((List.range n).map fun k => s.mem.get (s.i.toNat + k))
  exact hhit.trans (or_iff_right Bool.false_ne_true)

/-- A draw turns no pixel off (43_display.md R124). -/
theorem drawn_keeps_on {px : Fin Config.fbWidth} {py : Fin Config.fbHeight} (h : s.pixel px py = true) :
    (s.drawn x y n).1.pixel px py = true :=
  (drawRows_composed (s.fb, false) _ _ _ _).1 px py h

theorem completed_drw_vf : (completed (.drw x y n) s).reg vf = collisionFlag (s.drawn x y n).2 := by
  simp only [completed, State.setReg_reg, if_true]

end

/-- Settles O54: the loops of the compositor are `drawn_pixel`, and VF is the hit. -/
theorem drawCompositesTheSprite : Obligations.DrawCompositesTheSprite := by
  intro s x y n h
  refine ⟨_, exec_of_check_passes (if_neg (by omega)), drawn_pixel x y h, fun hon => ?_, fun hoff => ?_, rfl,
    completed_frame _ s⟩
  · rw [completed_drw_vf, (drawn_hit x y).mpr hon]; rfl
  · rw [completed_drw_vf, Bool.eq_false_iff.mpr (mt (drawn_hit x y).mp hoff)]; rfl

/-- Settles O55: the second draw's sprite covers the same pixels, which the first draw turned on (O54 twice). -/
theorem secondDrawHitsNothing : Obligations.SecondDrawHitsNothing := by
  intro s t u x y n h hexec hfb hmem hi hx hy
  obtain ⟨t', ht', htpix, -⟩ := drawCompositesTheSprite s x y n h
  cases next_inj (ht'.symm.trans hexec)
  obtain ⟨u', hu', hupix, -, hvf, -⟩ := drawCompositesTheSprite u x y n (by rwa [hi])
  have hsprite px py : SpriteOn u x y n px py ↔ SpriteOn s x y n px py := by
    simp only [SpriteOn, hmem, State.dataAddr, hi, hx, hy]
  have hpicture px py : u.pixel px py = t.pixel px py := by rw [State.pixel, hfb]; rfl
  have hsame px py : u'.pixel px py = t.pixel px py := by
    rw [Bool.eq_iff_iff]
    calc u'.pixel px py = true ↔ u.pixel px py = true ∨ SpriteOn u x y n px py := hupix px py
      _ ↔ t.pixel px py = true ∨ SpriteOn s x y n px py := by rw [hpicture, hsprite]
      _ ↔ t.pixel px py = true := or_iff_left_of_imp fun hs => (htpix px py).mpr (.inr hs)
  refine ⟨u', hu', hvf ?_, hsame⟩
  rintro ⟨px, py, hoff, hon⟩
  rw [hsame, ← hpicture, hoff] at hon
  cases hon

/-! ### Keypad -/

theorem State.keyOf_of_index (s : State) {u : Byte} {k : KeyIndex} (h : u.toNat = k.val) : s.keyOf u = some (s.key k) :=
  State.keyOf_eq_some.mpr ⟨h ▸ k.isLt, congrArg s.key (Fin.ext h)⟩

/-- Settles O56: the key VX names decides the skip, and whether it names one decides the check. -/
theorem keySkipsTestTheKey : Obligations.KeySkipsTestTheKey := by
  refine fun s x => ⟨fun k h => ?_, fun h => ⟨⟨_, exec_of_check_fails (if_pos h), raised_enterFaulted s _ _⟩,
    ⟨_, exec_of_check_fails (if_pos h), raised_enterFaulted s _ _⟩⟩⟩
  have hkey := s.keyOf_of_index h
  have hindex : ¬ 16 ≤ (s.reg x).toNat := by omega
  refine ⟨⟨_, exec_of_check_passes (if_neg hindex), ?_, frame_setPc s _⟩,
    ⟨_, exec_of_check_passes (if_neg hindex), ?_, frame_setPc s _⟩⟩
  all_goals simp only [completed, State.setPc_pc, hkey, Option.some.injEq]

/-- Settles O58: the advance is one update of pc. -/
theorem audioOpcodeOnlyAdvances : Obligations.AudioOpcodeOnlyAdvances := fun s _ =>
  ⟨_, exec_of_check_passes rfl, rfl, frame_setPc s _⟩

theorem zextNibble_toNat (k : Fin 16) : (zextNibble k).toNat = k.val :=
  Nat.mod_eq_of_lt (Nat.lt_trans k.isLt (by decide))

/-- Settles O59: FX0A is the advance and two updates, of WAKE and EXEC. -/
theorem keyWaitRecordsItsRegister : Obligations.KeyWaitRecordsItsRegister := fun s x =>
  ⟨_, exec_of_check_passes rfl, zextNibble_toNat x, rfl, rfl, (completed_frame (.ldVxK x) s).mono fun p h =>
    show p = .wake ∨ p = .execState ∨ p = .pc by rcases h with h | h | h <;> simp [h]⟩

end Sys2Proof.Machine
end

section
/-! SUPPORT. The STEP command and the host's other commands, going through Laws/Step: what a STEP in Running does, what
each command writes, and the state after reset. -/

namespace Sys2Proof.Machine

section
variable {s : State} {r : Byte} {rest : List Command} {i : Instr}

/-! ### Fetch -/

theorem State.fetch_of_reads {hi lo : Byte} (hhi : s.mem.read s.pc.toNat = some hi)
    (hlo : s.mem.read (s.pc.toNat + 1) = some lo) : s.fetch = some (wordOfBytes hi lo) := by
  simp only [State.fetch, hhi, hlo]

/-! ### A STEP in Running -/

/-- A STEP of a decoded instruction is its meaning on the begun state. -/
theorem step_executes (hs : s.StepNext r rest) (hx : s.Executes i) : step s = exec i (s.begun r rest) := by
  obtain ⟨-, hrunning, w, hfetch, hdecode⟩ := hx
  have hfetch' : (s.begun r rest).fetch = some w := hfetch
  simp only [step_running hs hrunning, instructionCycle, hfetch', hdecode]

/-- The check does not see what a STEP brings with it. -/
theorem ownCheck_begun : ownCheck i (s.begun r rest) = ownCheck i s := by cases i <;> rfl

theorem fatalOf_begun : fatalOf (s.begun r rest) = fatalOf s := by
  have hfetch : (s.begun r rest).fetch = s.fetch := rfl
  simp only [fatalOf, hfetch, ownCheck_begun]

theorem mayWrite_begun {p : Part} : mayWrite i (s.begun r rest) p ↔ mayWrite i s p := by cases i <;> exact Iff.rfl

/-- A cycle that meets a fatal error enters Faulted with the fetched word, which is the instruction's encoding when the
check is its own (O2). -/
theorem instructionCycle_of_fatal {k : FatalKind} (h : fatalOf s = some k) :
    instructionCycle s = .next (s.enterFaulted k s.fetch) := by
  obtain ⟨hf, hx⟩ | ⟨w, e, hf, hd, hx⟩ | ⟨w, i, hf, hd, hx⟩ := instructionCycle_cases s
  · simp only [fatalOf, hf, Option.some.injEq] at h
    rw [hx, hf, h]
  · simp only [fatalOf, hf, hd, Option.some.injEq] at h
    rw [hx, hf, h]
  · simp only [fatalOf, hf, hd] at h
    rw [hx, exec_of_check_fails h, hf, (decodedWordEncodesBack w i hd).2]

theorem instructionCycle_of_no_fatal (h : fatalOf s = none) :
    ∃ w i, s.fetch = some w ∧ decodeWord w = .ok i ∧ instructionCycle s = .next (completed i s) := by
  obtain ⟨hf, -⟩ | ⟨w, e, hf, hd, -⟩ | ⟨w, i, hf, hd, hx⟩ := instructionCycle_cases s
  · simp only [fatalOf, hf, reduceCtorEq] at h
  · simp only [fatalOf, hf, hd, reduceCtorEq] at h
  · simp only [fatalOf, hf, hd] at h
    exact ⟨w, i, hf, hd, hx.trans (exec_of_check_passes h)⟩

theorem completed_not_faulted (h : s.execState = .running) : (completed i s).execState ≠ .faulted := by
  obtain he | ⟨-, he⟩ := completed_execState i s
  · rw [he, h]; nofun
  · rw [he]; nofun

/-! ### The latched byte -/

theorem ownCheck_with_rnd : ownCheck i { s with rnd := r } = ownCheck i s := by cases i <;> rfl

theorem setRegsFrom_with_rnd (s : State) (k : Nat) (us : List Byte) :
    State.setRegsFrom { s with rnd := r } k us = { s.setRegsFrom k us with rnd := r } := by
  induction us generalizing s k with
  | nil => rfl
  | cons u us ih => rw [State.setRegsFrom, State.setRegsFrom, ← ih]; split <;> rfl

theorem completed_with_rnd (hi : ∀ x nn, i ≠ .rnd x nn) :
    completed i { s with rnd := r } = { completed i s with rnd := r } := by
  cases i with
  | rnd x nn => exact absurd rfl (hi x nn)
  | loadRegs x => exact congrArg (State.bumpI · x) (setRegsFrom_with_rnd s.advance 0 _)
  | _ => rfl

/-! ### The frames of the commands -/

theorem frame_setInputs (s : State) (l : List Command) : Frame s (s.setInputs l) fun p => p = .inputs := by
  intro p hp
  cases p with
  | inputs => exact absurd rfl hp
  | _ => rfl

theorem frame_setKey (s : State) (k : KeyIndex) (pressed : Bool) :
    Frame s (s.setKey k pressed) fun p => p = .key k := by
  intro p hp
  cases p with
  | key j => exact (s.setKey_key k pressed j).trans (if_neg fun hj => hp (congrArg Part.key hj))
  | _ => rfl

theorem frame_setLoadResponse (s : State) (a : LoadResponse) :
    Frame s (s.setLoadResponse a) fun p => p = .loadResponse := by
  intro p hp
  cases p with
  | loadResponse => exact absurd rfl hp
  | _ => rfl

theorem frame_setInputs_setKey (s : State) (l : List Command) (k : KeyIndex) (pressed : Bool) :
    Frame s ((s.setInputs l).setKey k pressed) fun p => p = .inputs ∨ p = .key k :=
  (frame_setInputs s l).trans (frame_setKey _ k pressed)

/-! ### Every command in Faulted -/

/-- In Faulted every command but RESET is ignored (60_exceptions.md R168). -/
theorem runCommand_faulted {c : Command} (h : s.execState = .faulted) (hc : c ≠ .reset) : runCommand c s = .next s := by
  cases c with
  | reset => exact absurd rfl hc
  | load rom => simp only [runCommand, loadCommand, h]
  | step r => simp only [runCommand, stepCommand, h]
  | tick => simp only [runCommand, tickCommand, h]
  | keyDown k => simp only [runCommand, keyDownCommand, h]
  | keyUp k => simp only [runCommand, keyUpCommand, h]

/-! ### Key events -/

theorem keyUpCommand_running {k : KeyIndex} (h : s.execState = .running) :
    keyUpCommand k s = .next (s.setKey k false) := by
  simp only [keyUpCommand, h]

theorem keyUpCommand_waiting {k : KeyIndex} {x : Reg} (h : s.execState = .waitingForKey) (hx : s.wake.toNat = x.val) :
    keyUpCommand k s = .next (((s.setKey k false).setReg x (zextNibble k)).setExecState .running) := by
  have hlt : s.wake.toNat < 16 := hx ▸ x.isLt
  have hreg : (⟨s.wake.toNat, hlt⟩ : Reg) = x := Fin.ext hx
  simp only [keyUpCommand, h, dif_pos hlt, hreg]

theorem keyUpCommand_no_register {k : KeyIndex} (h : s.execState = .waitingForKey) (hwake : 16 ≤ s.wake.toNat) :
    keyUpCommand k s = .fault .wakeNamesNoRegister := by
  simp only [keyUpCommand, h, dif_neg (Nat.not_lt.mpr hwake)]

/-! ### The state after reset -/

theorem resetByte_above_font {a : Nat} (h : 0x50 ≤ a) : resetByte a = 0 := by
  have hlen : font.length = 0x50 := rfl
  rw [resetByte, List.getD_eq_default _ _ (hlen ▸ h)]

/-! ### The placing of a word (log 7) -/

theorem decodeWord_of_decodeTableWord {nbits w : Nat} (h : decodeTableWord nbits w = some i) :
    decodeWord (BitVec.ofNat 16 (w % 2 ^ nbits)) = .ok i := by
  simp only [decodeTableWord, decode, wordOfBytes_of_bytes] at h
  cases hd : decodeWord (BitVec.ofNat 16 (w % 2 ^ nbits)) with
  | ok j => simp only [hd, Option.some.injEq] at h; rw [h]
  | error e => simp only [hd, reduceCtorEq] at h

theorem fetchPlace_lt (s : State) : (fetchPlace s).toNat + 1 < 0x1000 := by
  unfold fetchPlace
  split
  · assumption
  · decide

theorem placeWord_fetch (s : State) (w : Word) : (placeWord s w).fetch = some w := by
  have hpc : (placeWord s w).pc = fetchPlace s := rfl
  have hmem : (placeWord s w).mem = s.mem.putBytes (fetchPlace s).toNat [hiByte w, loByte w] := rfl
  refine State.fetch_eq_some.mpr ⟨fetchPlace_lt s, ?_⟩
  rw [hpc, hmem, Memory.get_putBytes, Memory.get_putBytes, if_pos (by simp), if_pos (by simp), Nat.sub_self,
    Nat.add_sub_cancel_left]
  exact (wordOfBytes_of_bytes w).symm

theorem placeWord_frame (s : State) (w : Word) :
    Frame s (placeWord s w) fun p => p = .inputs ∨ p = .execState ∨ (p = .pc ∧ 0xFFF ≤ s.pc.toNat) ∨
      p = .mem (fetchPlace s).toNat ∨ p = .mem ((fetchPlace s).toNat + 1) := by
  intro p hp
  simp only [not_or] at hp
  obtain ⟨hinputs, hexec, hpc, hhi, hlo⟩ := hp
  cases p with
  | inputs => exact absurd rfl hinputs
  | execState => exact absurd rfl hexec
  | pc =>
    have hin : ¬ 0xFFF ≤ s.pc.toNat := fun h => hpc ⟨rfl, h⟩
    exact if_pos (show s.pc.toNat + 1 < 0x1000 by omega)
  | mem b =>
    refine frame_putBytes (s.setPc (fetchPlace s)) (fetchPlace s).toNat [hiByte w, loByte w] (.mem b) ?_
    rintro ⟨k, hk, hb⟩
    obtain rfl | rfl : k = 0 ∨ k = 1 := by simp at hk; omega
    · exact hhi hb
    · exact hlo hb
  | _ => rfl

end

/-! ### The obligations -/

/-- Settles O5: the fetch is `wordOfBytes` of the two reads. -/
theorem fetchIsBigEndian : Obligations.FetchIsBigEndian := fun _ hi lo hhi hlo =>
  ⟨_, State.fetch_of_reads hhi hlo, wordOfBytes_toNat hi lo⟩

/-- Settles O6: the two bytes at pc are the word the state executes. -/
theorem stepRunsTheDecodedInstruction : Obligations.StepRunsTheDecodedInstruction :=
  fun _ r rest _ _ _ hs hrunning hhi hlo hdecode =>
    step_executes hs ⟨⟨r, rest, hs⟩, hrunning, _, State.fetch_of_reads hhi hlo, hdecode⟩

/-- Settles O8: a STEP in Running is the cycle on the begun state, which meets the same fatal error. -/
theorem fatalErrorsArePrecise : Obligations.FatalErrorsArePrecise := by
  intro s r rest hs hrunning
  refine ⟨fun k hk => ?_, fun hnone => ?_⟩
  · exact ⟨_, (step_running hs hrunning).trans (instructionCycle_of_fatal (fatalOf_begun.trans hk)),
      raised_enterFaulted _ k _⟩
  · obtain ⟨w, i, hf, hd, hx⟩ := instructionCycle_of_no_fatal (fatalOf_begun (r := r) (rest := rest) |>.trans hnone)
    exact ⟨w, i, _, hf, hd, (step_running hs hrunning).trans hx, completed_not_faulted hrunning, completed_frame i _⟩

/-- Settles O39: the begun state holds the byte the STEP brings. -/
theorem randomByteIsMasked : Obligations.RandomByteIsMasked := by
  refine ⟨fun s x nn => completes_of_writeResult rfl, fun s r rest x nn hs hx => ?_⟩
  exact ⟨_, (step_executes hs hx).trans (exec_of_check_passes rfl), by simp [completed]⟩

/-- Settles O22: neither the check nor what an instruction leaves depends on the latched byte, but for CXNN. -/
theorem onlyCXNNReadsTheRandomByte : Obligations.OnlyCXNNReadsTheRandomByte := by
  intro i s t r hi h
  obtain ⟨k, hk, rfl⟩ | ⟨hnone, rfl⟩ := exec_cases h
  · exact exec_of_check_fails (ownCheck_with_rnd.trans hk)
  · rw [exec_of_check_passes (ownCheck_with_rnd.trans hnone), completed_with_rnd hi]

/-- Settles O7: the two states other than Running both ignore a STEP. -/
theorem stepOutsideRunningChangesNothing : Obligations.StepOutsideRunningChangesNothing := by
  intro s r rest hs hrunning
  refine ⟨_, ?_, rfl, frame_setInputs s rest⟩
  cases he : s.execState with
  | running => exact absurd he hrunning
  | waitingForKey => exact step_waiting hs he
  | faulted => exact step_faulted hs he

/-- Settles O15: RESET is the one command that Faulted does not ignore. -/
theorem onlyResetLeavesFaulted : Obligations.OnlyResetLeavesFaulted := by
  intro s c rest hfaulted hin
  refine ⟨fun hc => ⟨_, ?_, rfl, frame_setInputs s rest⟩, ?_⟩
  · exact (step_command hin).trans (runCommand_faulted (s := s.setInputs rest) hfaulted hc)
  · rintro rfl
    exact ⟨_, step_command hin, rfl, rfl, rfl⟩

/-- Settles O25: outside Faulted the command is one update of its key. -/
theorem keyDownSetsItsKey : Obligations.KeyDownSetsItsKey := by
  intro s k rest hlive hin
  obtain ⟨hfaulted, -⟩ | ⟨-, ht⟩ := keyDownCommand_cases k (s.setInputs rest)
  · exact absurd hfaulted hlive
  · exact ⟨_, (step_command hin).trans (congrArg Host.Outcome.next ht), by simp, rfl,
      frame_setInputs_setKey s rest k true⟩

/-- Settles O26: one clause for Running, and two for WaitingForKey by what WAKE names. -/
theorem keyUpClearsItsKeyAndEndsAWait : Obligations.KeyUpClearsItsKeyAndEndsAWait := by
  intro s k rest hin
  have hstep : step s = keyUpCommand k (s.setInputs rest) := step_command hin
  refine ⟨fun hrunning => ?_, fun hwaiting x hx => ?_, fun hwaiting hwake => ?_⟩
  · exact ⟨_, hstep.trans (keyUpCommand_running hrunning), by simp, rfl, frame_setInputs_setKey s rest k false⟩
  · refine ⟨_, hstep.trans (keyUpCommand_waiting hwaiting hx), by simp, by simp [zextNibble_toNat], rfl, rfl, ?_⟩
    refine (((frame_setInputs_setKey s rest k false).trans (frame_setReg _ x _)).trans (frame_setExecState _ _)).mono ?_
    tauto
  · exact hstep.trans (keyUpCommand_no_register hwaiting hwake)

/-- Settles O60: FX0A leaves X in WAKE, where the KEY_UP after it finds it. -/
theorem keyWaitDeliversTheReleasedKey : Obligations.KeyWaitDeliversTheReleasedKey := by
  intro s r rest k x hin hx
  have hfirst : step s = .next (completed (.ldVxK x) (s.begun r (.keyUp k :: rest))) :=
    (step_executes (.inl hin) hx).trans (exec_of_check_passes rfl)
  have hsecond {t : State} (ht : t.inputs = .keyUp k :: rest) : step t = keyUpCommand k (t.setInputs rest) :=
    step_command ht
  refine ⟨_, _, hfirst, (hsecond rfl).trans (keyUpCommand_waiting rfl (zextNibble_toNat x)), ?_, rfl, rfl, ?_, rfl,
    fun y hy => ?_⟩
  · simp [zextNibble_toNat]
  · simp
  · simp [completed, hy]

/-- Settles O27: DT above zero and DT at zero are the two cases of the command. -/
theorem tickCountsTheDelayTimerDown : Obligations.TickCountsTheDelayTimerDown := by
  intro s rest hlive hin
  obtain ⟨hzero, ht⟩ | ⟨-, hpos, ht⟩ := tickCommand_cases (s.setInputs rest)
  all_goals refine ⟨_, (step_command hin).trans (congrArg Host.Outcome.next ht), ?_, ?_, rfl, ?_⟩
  · exact fun hpos => absurd (hzero.resolve_left hlive) (Nat.ne_of_gt hpos)
  · exact fun _ => rfl
  · exact (frame_setInputs s rest).mono fun _ => Or.inl
  · intro hpos
    show (s.dt - 1).toNat = s.dt.toNat - 1
    bv_omega
  · exact fun hzero => absurd hzero (Nat.ne_of_gt hpos)
  · exact (frame_setInputs s rest).trans (frame_setDt _ _)

/-- Settles O28: a program that fits is one store at 0x200, which it does not reach past. -/
theorem loadPlacesTheProgramOrIsRejected : Obligations.LoadPlacesTheProgramOrIsRejected := by
  intro s rom rest hlive hin
  obtain ⟨hfaulted, -⟩ | ⟨-, hfits, ht⟩ | ⟨-, hlong, ht⟩ := loadCommand_cases rom (s.setInputs rest)
  · exact absurd hfaulted hlive
  · refine ⟨_, (step_command hin).trans (congrArg Host.Outcome.next ht), rfl, fun _ => ⟨rfl, fun n hn => ?_, ?_⟩,
      fun hlong => absurd hfits (Nat.not_le.mpr hlong)⟩
    · exact s.mem.read_putBytes hn (by omega)
    · refine (((frame_setInputs s rest).trans (frame_putBytes _ 0x200 rom)).trans (frame_setLoadResponse _ _)).mono ?_
      tauto
  · exact ⟨_, (step_command hin).trans (congrArg Host.Outcome.next ht), rfl,
      fun hfits => absurd hfits (Nat.not_le.mpr hlong),
      fun _ => ⟨rfl, (frame_setInputs s rest).trans (frame_setLoadResponse _ _)⟩⟩

/-- Settles O29: RESET writes the reset state out, but for what is the host's. -/
theorem resetCommandGivesTheResetState : Obligations.ResetCommandGivesTheResetState := by
  intro s rest hin
  refine ⟨_, step_command hin, rfl, rfl, rfl, fun p hp => ?_⟩
  cases p with
  | inputs | draws | rnd | loadResponse => simp at hp
  | _ => rfl

/-- Settles O30: 80 bytes, read one by one. -/
theorem fontStandsAtReset : Obligations.FontStandsAtReset := ⟨rfl, rfl, rfl, rfl⟩

/-- Settles O31: the memory above the font is read by address, everything else is written out in the reset state. -/
theorem resetValuesAreTheSpecs : Obligations.ResetValuesAreTheSpecs := by
  refine ⟨fun x => ?_, rfl, rfl, rfl, fun a hfont ha => ?_, fun a ha => Memory.read_ge _ _ ha, rfl, rfl, rfl,
    fun k => ?_, fun x y => Framebuffer.pixel_blank x y, rfl⟩
  · simp [State.reg, State.reset]
  · exact (Memory.read_lt _ _ ha).trans (congrArg some (resetByte_above_font hfont))
  · simp [State.key, State.reset]

/-- Settles O32: one concrete step, from reset. -/
theorem stepBeforeLoadIsUnknownInstruction : Obligations.StepBeforeLoadIsUnknownInstruction := ⟨_, rfl, rfl, rfl, rfl⟩

/-- Settles O33: the port copies its fields, and each kind has its code. -/
theorem statusPortShowsExecAndFault : Obligations.StatusPortShowsExecAndFault :=
  ⟨fun _ => ⟨rfl, rfl, rfl, rfl, rfl, rfl⟩, rfl⟩

/-- Settles O24: the placed word is the word fetched, with no command queued and Running. -/
theorem placedWordRunsNext : Obligations.PlacedWordRunsNext := by
  intro s w i h
  have hs : (s.withFetchWord 16 w).StepNext (Config.rndByte (s.withFetchWord 16 w).draws) [] := .inr ⟨rfl, rfl, rfl⟩
  exact ⟨⟨_, _, step_executes hs ⟨⟨_, _, hs⟩, rfl, _, placeWord_fetch s _, decodeWord_of_decodeTableWord h⟩⟩,
    placeWord_frame s _⟩

end Sys2Proof.Machine
end

section
/-! SUPPORT. The canonical form of memory (log 10), and the invariant of every run: it holds at reset, every step keeps
it, and a state that meets it always steps. -/

namespace Sys2Proof.Machine

/-! ### Canonical memories -/

/-- An address below every listed one reads as the reset contents. -/
theorem Memory.get_of_lt {lo a : Nat} {m : Memory} (hm : Memory.wfFrom lo m = true) (h : a < lo) :
    m.get a = resetByte a := by
  induction m generalizing lo with
  | nil => rfl
  | cons c rest ih =>
    obtain ⟨b, u⟩ := c
    simp only [Memory.wfFrom, Bool.and_eq_true, decide_eq_true_eq] at hm
    obtain ⟨⟨⟨hlo, -⟩, -⟩, hrest⟩ := hm
    rw [Memory.get, if_neg (by omega), ih hrest (by omega)]

/-- A listed address does not read as the reset contents. -/
theorem Memory.get_head_ne {lo b : Nat} {u : Byte} {rest : Memory} (hm : Memory.wfFrom lo ((b, u) :: rest) = true) :
    Memory.get ((b, u) :: rest) b ≠ resetByte b := by
  simp only [Memory.wfFrom, Bool.and_eq_true, decide_eq_true_eq] at hm
  obtain ⟨⟨-, hne⟩, -⟩ := hm
  rwa [Memory.get, if_pos rfl]

/-- A canonical list starts at its first address. -/
theorem Memory.wfFrom_head {lo b : Nat} {u : Byte} {rest : Memory} (hm : Memory.wfFrom lo ((b, u) :: rest) = true) :
    Memory.wfFrom b ((b, u) :: rest) = true := by
  simp only [Memory.wfFrom, Bool.and_eq_true, decide_eq_true_eq] at hm ⊢
  obtain ⟨⟨⟨-, hb⟩, hne⟩, hrest⟩ := hm
  exact ⟨⟨⟨le_rfl, hb⟩, hne⟩, hrest⟩

/-- The first listed address of one memory is not below the first of another that reads the same. -/
theorem Memory.head_le {lo lo' a b : Nat} {u w : Byte} {m m' : Memory} (hm : Memory.wfFrom lo ((a, u) :: m) = true)
    (hm' : Memory.wfFrom lo' ((b, w) :: m') = true)
    (h : ∀ c, Memory.get ((a, u) :: m) c = Memory.get ((b, w) :: m') c) : b ≤ a := by
  by_contra hlt
  have hreset := Memory.get_of_lt (Memory.wfFrom_head hm') (Nat.lt_of_not_le hlt)
  exact Memory.get_head_ne hm ((h a).trans hreset)

theorem Memory.eq_of_get_eq {lo lo' : Nat} {m m' : Memory} (hm : Memory.wfFrom lo m = true)
    (hm' : Memory.wfFrom lo' m' = true) (h : ∀ a, m.get a = m'.get a) : m = m' := by
  induction m generalizing lo lo' m' with
  | nil =>
    cases m' with
    | nil => rfl
    | cons c rest => exact absurd (h c.1).symm (Memory.get_head_ne hm')
  | cons c rest ih =>
    obtain ⟨a, u⟩ := c
    cases m' with
    | nil => exact absurd (h a) (Memory.get_head_ne hm)
    | cons c' rest' =>
      obtain ⟨b, w⟩ := c'
      obtain rfl : a = b := Nat.le_antisymm (Memory.head_le hm' hm fun c => (h c).symm) (Memory.head_le hm hm' h)
      have hu : u = w := by simpa only [Memory.get, if_true] using h a
      simp only [Memory.wfFrom, Bool.and_eq_true, decide_eq_true_eq] at hm hm'
      obtain ⟨-, hrest⟩ := hm
      obtain ⟨-, hrest'⟩ := hm'
      rw [hu, ih hrest hrest' fun c => ?_]
      by_cases hc : c = a
      · have hlt : c < a + 1 := hc ▸ Nat.lt_succ_self a
        rw [Memory.get_of_lt hrest hlt, Memory.get_of_lt hrest' hlt]
      · simpa only [Memory.get, if_neg hc] using h c

/-- From memory on, every address reads the same in a canonical memory. -/
theorem Memory.get_of_ge {lo a : Nat} {m : Memory} (hm : Memory.wfFrom lo m = true) (h : 0x1000 ≤ a) :
    m.get a = resetByte a := by
  induction m generalizing lo with
  | nil => rfl
  | cons c rest ih =>
    obtain ⟨b, u⟩ := c
    simp only [Memory.wfFrom, Bool.and_eq_true, decide_eq_true_eq, Config.memSize] at hm
    obtain ⟨⟨⟨-, hb⟩, -⟩, hrest⟩ := hm
    rw [Memory.get, if_neg (by omega), ih hrest]

/-- Settles O14: reads that agree are bytes that agree, and these determine the list. -/
theorem canonicalMemoriesWithEqualReadsAreEqual : Obligations.CanonicalMemoriesWithEqualReadsAreEqual := by
  intro m m' hm hm' h
  refine Memory.eq_of_get_eq hm hm' fun a => ?_
  by_cases ha : a < 0x1000
  · exact Option.some.inj (by rw [← Memory.read_lt _ _ ha, ← Memory.read_lt _ _ ha, h])
  · rw [Memory.get_of_ge hm (Nat.not_lt.mp ha), Memory.get_of_ge hm' (Nat.not_lt.mp ha)]

/-! ### The part of the invariant that is not about FAULT -/

/-- Memory, stack, pc and WAKE as `State.Inv` has them. -/
structure State.Bounded (s : State) : Prop where
  memWf : s.mem.wf = true
  stackDepth : s.stack.length ≤ 16
  stackEntries : ∀ a ∈ s.stack, a.toNat ≤ 0x1000
  pcBound : s.pc.toNat ≤ 0x10FE
  wakeBound : s.wake.toNat < 16

section
variable {s t : State}

theorem State.Inv.bounded (h : s.Inv) : s.Bounded := ⟨h.memWf, h.stackDepth, h.stackEntries, h.pcBound, h.wakeBound⟩

/-- Outside Faulted the rest of the invariant is that FAULT is clear. -/
theorem State.Bounded.inv (h : s.Bounded) (hlive : s.execState ≠ .faulted)
    (hclear : s.faultRecord = FaultRecord.clear) : s.Inv where
  memWf := h.memWf
  stackDepth := h.stackDepth
  stackEntries := h.stackEntries
  pcBound := h.pcBound
  wakeBound := h.wakeBound
  faultClear := fun _ => hclear
  faultNamed := fun hf => absurd hf hlive
  faultFetched := fun hf => absurd hf hlive
  faultUnfetched := fun hf => absurd hf hlive

/-- A fatal error keeps the invariant when it names a kind, and a word if and only if one lies at pc. -/
theorem State.Bounded.inv_enterFaulted (h : s.Bounded) {k : FatalKind} {w : Option Word} (hk : k ≠ .none)
    (hw : w.isSome = true ↔ s.pc.toNat + 1 < 0x1000) (hnone : w = none → k = .addressOutOfRange) :
    (s.enterFaulted k w).Inv where
  memWf := h.memWf
  stackDepth := h.stackDepth
  stackEntries := h.stackEntries
  pcBound := h.pcBound
  wakeBound := h.wakeBound
  faultClear := fun hlive => absurd rfl hlive
  faultNamed := fun _ => ⟨hk, rfl⟩
  faultFetched := fun _ => hw
  faultUnfetched := fun _ hv => by
    obtain rfl : w = none := Option.isNone_iff_eq_none.mp (by simpa using hv)
    exact ⟨rfl, hnone rfl⟩

/-- What the invariant reads: a state that has it the same has the invariant too, its memory canonical. -/
theorem State.Inv.of_same (h : s.Inv) (hmem : t.mem.wf = true) (hstack : t.stack = s.stack) (hpc : t.pc = s.pc)
    (hwake : t.wake = s.wake) (hexec : t.execState = s.execState) (hfault : t.faultRecord = s.faultRecord) : t.Inv where
  memWf := hmem
  stackDepth := hstack ▸ h.stackDepth
  stackEntries := hstack ▸ h.stackEntries
  pcBound := hpc ▸ h.pcBound
  wakeBound := hwake ▸ h.wakeBound
  faultClear := hexec ▸ hfault ▸ h.faultClear
  faultNamed := by rw [hexec, hfault, hpc]; exact h.faultNamed
  faultFetched := by rw [hexec, hfault, hpc]; exact h.faultFetched
  faultUnfetched := by rw [hexec, hfault]; exact h.faultUnfetched

/-! ### What an instruction leaves is bounded -/

/-- The form of every own check (`ownCheck`), when it passes. -/
theorem not_of_check_passes {c : Prop} [Decidable c] {k : FatalKind} (h : (if c then some k else none) = none) : ¬ c :=
  fun hc => by simp [hc] at h

theorem State.Bounded.of_pc (h : s.Bounded) (hmem : t.mem = s.mem) (hstack : t.stack = s.stack)
    (hwake : t.wake = s.wake) (hpc : t.pc.toNat ≤ 0x10FE) : t.Bounded :=
  ⟨hmem ▸ h.memWf, hstack ▸ h.stackDepth, hstack ▸ h.stackEntries, hpc, hwake ▸ h.wakeBound⟩

theorem pc_advance_le {a : Word} (h : a.toNat + 1 < 0x1000) : (a + 2).toNat ≤ 0x1000 := by bv_omega

theorem pc_skip_le {a : Word} (h : a.toNat + 1 < 0x1000) (c : Prop) [Decidable c] :
    (if c then a + 4 else a + 2).toNat ≤ 0x10FE := by
  split <;> bv_omega

theorem zextAddr_le (addr : Addr) : (zextAddr addr).toNat ≤ 0x10FE := by
  have haddr := addr.isLt
  rw [zextAddr_toNat]
  omega

/-- The highest target is 0xFFF + 0xFF (10_state.md R25). -/
theorem targetV0_le (addr : Addr) : (s.targetV0 addr).toNat ≤ 0x10FE := by
  have haddr := addr.isLt
  have hreg := (s.reg 0).isLt
  rw [State.targetV0_toNat]
  omega

theorem completed_ret_bounded (h : s.Bounded) (hc : ownCheck .ret s = none) : (completed .ret s).Bounded := by
  cases hs : s.stack with
  | nil => exact absurd hs (not_of_check_passes hc)
  | cons a rest =>
    have hentries := h.stackEntries
    have hdepth := h.stackDepth
    simp only [hs, List.mem_cons, forall_eq_or_imp, List.length_cons] at hentries hdepth
    obtain ⟨ha, hrest⟩ := hentries
    refine ⟨h.memWf, ?_, ?_, ?_, h.wakeBound⟩
    · simpa [completed, hs] using Nat.le_of_succ_le hdepth
    · simpa [completed, hs] using hrest
    · simpa [completed, hs] using Nat.le_trans ha (by decide)

theorem completed_call_bounded {addr : Addr} (h : s.Bounded) (hpc : s.pc.toNat + 1 < 0x1000)
    (hc : ownCheck (.call addr) s = none) : (completed (.call addr) s).Bounded where
  memWf := h.memWf
  stackDepth := Nat.lt_of_not_le (not_of_check_passes hc)
  stackEntries := List.forall_mem_cons.mpr ⟨pc_advance_le hpc, h.stackEntries⟩
  pcBound := zextAddr_le addr
  wakeBound := h.wakeBound

theorem completed_store_bounded (h : s.Bounded) {us : List Byte} (hin : s.i.toNat + us.length ≤ 0x1000)
    (hmem : t.mem = s.mem.putBytes s.i.toNat us) (hstack : t.stack = s.stack) (hwake : t.wake = s.wake)
    (hpc : t.pc.toNat ≤ 0x10FE) : t.Bounded :=
  ⟨hmem ▸ Memory.putBytes_wf h.memWf hin, hstack ▸ h.stackDepth, hstack ▸ h.stackEntries, hpc, hwake ▸ h.wakeBound⟩

/-- An instruction whose word lies in memory and whose check passes keeps the bounds. -/
theorem completed_bounded {i : Instr} (h : s.Bounded) (hpc : s.pc.toNat + 1 < 0x1000) (hc : ownCheck i s = none) :
    (completed i s).Bounded := by
  have hadvance : (s.pc + 2).toNat ≤ 0x10FE := Nat.le_trans (pc_advance_le hpc) (by decide)
  have hskip (c : Prop) [Decidable c] : (if c then s.pc + 4 else s.pc + 2).toNat ≤ 0x10FE := pc_skip_le hpc c
  cases i with
  | ret => exact completed_ret_bounded h hc
  | call addr => exact completed_call_bounded h hpc hc
  | jp addr => exact h.of_pc rfl rfl rfl (zextAddr_le addr)
  | jpV0 addr => exact h.of_pc rfl rfl rfl (targetV0_le addr)
  | seImm x nn | sneImm x nn | seReg x y | sneReg x y | skp x | sknp x => exact h.of_pc rfl rfl rfl (hskip _)
  | ldVxK x => exact ⟨h.memWf, h.stackDepth, h.stackEntries, hadvance, (zextNibble_toNat x).trans_lt x.isLt⟩
  | ldBVx x =>
    have hin : s.i.toNat + 2 < 0x1000 := Nat.lt_of_not_le (not_of_check_passes hc)
    exact completed_store_bounded h (us := bcdDigits (s.reg x)) hin rfl rfl rfl hadvance
  | storeRegs x =>
    have hin : s.i.toNat + x.val < 0x1000 := Nat.lt_of_not_le (not_of_check_passes hc)
    exact completed_store_bounded h (us := s.regsUpTo x) (by rw [State.regsUpTo_length]; exact hin) rfl rfl rfl hadvance
  | loadRegs x => exact h.of_pc (by simp [completed]) (by simp [completed]) (by simp [completed]) (by simpa [completed])
  | _ => exact h.of_pc rfl rfl rfl hadvance

theorem ownCheck_ne_some_none {i : Instr} : ownCheck i s ≠ some .none := by cases i <;> simp [ownCheck]

/-- An instruction that runs in Running, its word in memory, keeps the invariant. -/
theorem exec_keeps_inv {i : Instr} (h : s.Inv) (hrunning : s.execState = .running) (hpc : s.pc.toNat + 1 < 0x1000)
    (ht : exec i s = .next t) : t.Inv := by
  obtain ⟨k, hk, rfl⟩ | ⟨hc, rfl⟩ := exec_cases ht
  · exact h.bounded.inv_enterFaulted (fun hnone => ownCheck_ne_some_none (hnone ▸ hk)) (iff_of_true rfl hpc) nofun
  · refine (completed_bounded h.bounded hpc hc).inv (completed_not_faulted hrunning) ?_
    rw [completed_faultRecord, h.faultClear (by rw [hrunning]; nofun)]

/-! ### What the commands keep -/

/-- The reset state, and any that differs from it in what the invariant does not read. -/
theorem inv_of_reset_parts (hmem : s.mem = []) (hstack : s.stack = []) (hpc : s.pc = 0x200) (hwake : s.wake = 0)
    (hexec : s.execState = .running) (hfault : s.faultRecord = FaultRecord.clear) : s.Inv := by
  refine State.Bounded.inv ⟨by rw [hmem]; rfl, by simp [hstack], by simp [hstack], by rw [hpc]; decide, ?_⟩ ?_ hfault
  · rw [hwake]; decide
  · rw [hexec]; nofun

theorem State.Inv.setInputs (h : s.Inv) (l : List Command) : (s.setInputs l).Inv :=
  h.of_same h.memWf rfl rfl rfl rfl rfl

theorem State.Inv.begun (h : s.Inv) (r : Byte) (rest : List Command) : (s.begun r rest).Inv :=
  h.of_same h.memWf rfl rfl rfl rfl rfl

theorem loadCommand_keeps_inv (h : s.Inv) (rom : List Byte) : (loadCommand rom s).Inv := by
  obtain ⟨-, ht⟩ | ⟨-, hfits, ht⟩ | ⟨-, -, ht⟩ := loadCommand_cases rom s <;> rw [ht]
  · exact h
  · exact h.of_same (Memory.putBytes_wf h.memWf (by omega)) rfl rfl rfl rfl rfl
  · exact h.of_same h.memWf rfl rfl rfl rfl rfl

theorem tickCommand_keeps_inv (h : s.Inv) : (tickCommand s).Inv := by
  obtain ⟨-, ht⟩ | ⟨-, -, ht⟩ := tickCommand_cases s <;> rw [ht]
  · exact h
  · exact h.of_same h.memWf rfl rfl rfl rfl rfl

theorem keyDownCommand_keeps_inv (h : s.Inv) (k : KeyIndex) : (keyDownCommand k s).Inv := by
  obtain ⟨-, ht⟩ | ⟨-, ht⟩ := keyDownCommand_cases k s <;> rw [ht]
  · exact h
  · exact h.of_same h.memWf rfl rfl rfl rfl rfl

/-- Ending a wait leaves FAULT clear, as it was while waiting. -/
theorem keyUpCommand_keeps_inv {k : KeyIndex} (h : s.Inv) (ht : keyUpCommand k s = .next t) : t.Inv := by
  obtain ⟨-, rfl⟩ | ⟨-, rfl⟩ | ⟨hwaiting, x, -, rfl⟩ := keyUpCommand_cases ht
  · exact h
  · exact h.of_same h.memWf rfl rfl rfl rfl rfl
  · refine State.Bounded.inv (h.bounded.of_pc rfl rfl rfl h.pcBound) nofun (h.faultClear ?_)
    rw [hwaiting]; nofun

end

/-- Settles O11: the reset values written out. -/
theorem resetMeetsTheInvariant : Obligations.ResetMeetsTheInvariant := inv_of_reset_parts rfl rfl rfl rfl rfl rfl

/-- Settles O12: every way a step goes keeps the invariant. -/
theorem everyStepKeepsTheInvariant : Obligations.EveryStepKeepsTheInvariant := by
  intro s t h hstep
  cases step_kind hstep with
  | fetchFault r rest _ _ hfetch ht =>
    have hpc : ¬ s.pc.toNat + 1 < 0x1000 := Nat.not_lt.mpr (State.fetch_eq_none.mp hfetch)
    exact ht ▸ (h.begun r rest).bounded.inv_enterFaulted nofun (iff_of_false nofun hpc) fun _ => rfl
  | unknown r rest w e _ _ hfetch _ ht =>
    obtain ⟨hpc, -⟩ := State.fetch_eq_some.mp hfetch
    exact ht ▸ (h.begun r rest).bounded.inv_enterFaulted nofun (iff_of_true rfl hpc) nofun
  | runs r rest w i _ hrunning hfetch _ ht =>
    obtain ⟨hpc, -⟩ := State.fetch_eq_some.mp hfetch
    exact exec_keeps_inv (h.begun r rest) hrunning hpc ht
  | idle r rest _ _ ht => exact ht ▸ h.setInputs rest
  | reset rest _ ht => exact ht ▸ inv_of_reset_parts rfl rfl rfl rfl rfl rfl
  | load rom rest _ ht => exact ht ▸ loadCommand_keeps_inv (h.setInputs rest) rom
  | tick rest _ ht => exact ht ▸ tickCommand_keeps_inv (h.setInputs rest)
  | keyDown k rest _ ht => exact ht ▸ keyDownCommand_keeps_inv (h.setInputs rest) k
  | keyUp k rest _ ht => exact keyUpCommand_keeps_inv (h.setInputs rest) ht

/-! ### A state that meets the invariant steps -/

theorem exec_next (i : Instr) (s : State) : ∃ t, exec i s = .next t := by
  obtain ⟨k, -, h⟩ | ⟨-, h⟩ := checkedExec i s
  · exact ⟨_, h⟩
  · exact ⟨_, h⟩

theorem instructionCycle_next (s : State) : ∃ t, instructionCycle s = .next t := by
  obtain ⟨-, h⟩ | ⟨_, _, -, -, h⟩ | ⟨_, i, -, -, h⟩ := instructionCycle_cases s
  · exact ⟨_, h⟩
  · exact ⟨_, h⟩
  · exact h ▸ exec_next i s

theorem step_next_of_stepNext {s : State} {r : Byte} {rest : List Command} (hs : s.StepNext r rest) :
    ∃ t, step s = .next t := by
  cases he : s.execState with
  | running => exact step_running hs he ▸ instructionCycle_next _
  | waitingForKey => exact ⟨_, step_waiting hs he⟩
  | faulted => exact ⟨_, step_faulted hs he⟩

/-- KEY_UP needs WAKE to name a register when it ends a wait (log 6). -/
theorem keyUpCommand_next {s : State} (k : KeyIndex) (hwake : s.wake.toNat < 16) : ∃ t, keyUpCommand k s = .next t := by
  cases he : s.execState with
  | running => exact ⟨_, keyUpCommand_running he⟩
  | waitingForKey => exact ⟨_, keyUpCommand_waiting (x := ⟨s.wake.toNat, hwake⟩) he rfl⟩
  | faulted => exact ⟨_, runCommand_faulted (c := .keyUp k) he nofun⟩

/-- Settles O13: KEY_UP is the one command that could stop, and the invariant gives it its register. -/
theorem invariantStatesAlwaysStep : Obligations.InvariantStatesAlwaysStep := by
  intro s h
  cases hin : s.inputs with
  | nil => exact step_next_of_stepNext (.inr ⟨hin, rfl, rfl⟩)
  | cons c rest =>
    cases c with
    | step r => exact step_next_of_stepNext (.inl hin)
    | keyUp k => exact step_command hin ▸ keyUpCommand_next k h.wakeBound
    | reset | load rom | tick | keyDown k => exact ⟨_, step_command hin⟩

end Sys2Proof.Machine
end

section
/-! SUPPORT. The whole-machine rules: `step_writer` says once who changes a part of the state, and each rule is that
lemma at one part (10_state.md R30 to R33; 20_memory.md R48). -/

namespace Sys2Proof.Machine

/-! ### Who changes a part -/

/-- What changed the part `p` in a step from `s` to `t`: the step's own bookkeeping, a fatal error, the instruction it
ran, or the command it processed. -/
inductive Writer (s t : State) (p : Part) : Prop where
  | bookkeeping (part : p = .inputs ∨ p = .rnd ∨ p = .draws)
  | fatal (part : p = .execState ∨ p = .faultRecord) (running : s.execState = .running)
      (faulted : t.execState = .faulted)
  | instr (i : Instr) (r : Byte) (rest : List Command) (executes : s.Executes i) (writes : mayWrite i s p)
      (result : t = completed i (s.begun r rest))
  | reset (rest : List Command) (next : s.inputs = .reset :: rest) (running : t.execState = .running)
  | load (rom : List Byte) (rest : List Command) (next : s.inputs = .load rom :: rest)
      (part : p = .loadResponse ∨ ∃ a, p = .mem a)
  | tick (rest : List Command) (next : s.inputs = .tick :: rest) (part : p = .dt)
  | keyDown (k : KeyIndex) (rest : List Command) (next : s.inputs = .keyDown k :: rest) (part : p = .key k)
  | keyUp (k : KeyIndex) (rest : List Command) (next : s.inputs = .keyUp k :: rest) (part : p = .key k)
  | wake (k : KeyIndex) (rest : List Command) (next : s.inputs = .keyUp k :: rest) (running : t.execState = .running)
      (part : p = .execState ∨ ∃ x, p = .reg x)

section
variable {s t u : State} {p : Part} {P : Part → Prop}

/-- A part that changed was written. -/
theorem Frame.written (h : Frame s t P) (hp : ¬ p.same s t) : P p := not_imp_comm.mp (h p) hp

/-- A part that changed in two stages changed in one of them. -/
theorem Frame.written_or (h : Frame s t P) (hp : ¬ p.same s u) : P p ∨ ¬ p.same t u := by
  by_contra hneither
  simp only [not_or, not_not] at hneither
  obtain ⟨hfirst, hsecond⟩ := hneither
  exact hp (Part.same_trans (h p hfirst) hsecond)

theorem frame_begun (s : State) (r : Byte) (rest : List Command) :
    Frame s (s.begun r rest) fun p => p = .inputs ∨ p = .rnd ∨ p = .draws := by
  intro p hp
  cases p with
  | inputs | rnd | draws => simp at hp
  | _ => rfl

/-- A part that changes after the queue has moved on, or the queue itself. -/
theorem Writer.of_setInputs (rest : List Command) (hp : ¬ p.same s t)
    (h : ¬ p.same (s.setInputs rest) t → Writer s t p) :
    Writer s t p := by
  obtain hinputs | hp := (frame_setInputs s rest).written_or hp
  · exact .bookkeeping (.inl hinputs)
  · exact h hp

theorem Writer.of_begun {r : Byte} {rest : List Command} (hp : ¬ p.same s t)
    (h : ¬ p.same (s.begun r rest) t → Writer s t p) : Writer s t p := by
  obtain hown | hp := (frame_begun s r rest).written_or hp
  · exact .bookkeeping hown
  · exact h hp

theorem Part.same_refl (p : Part) (s : State) : p.same s s := by cases p <;> rfl

theorem Writer.of_enterFaulted {k : FatalKind} {w : Option Word} (hrunning : s.execState = .running)
    (hp : ¬ p.same u (u.enterFaulted k w)) : Writer s (u.enterFaulted k w) p := by
  obtain ⟨hfaulted, -, hframe⟩ := raised_enterFaulted u k w
  exact .fatal (hframe.written hp) hrunning hfaulted

theorem Writer.of_load {rom : List Byte} {rest : List Command} (next : s.inputs = .load rom :: rest)
    (hp : ¬ p.same (s.setInputs rest) (loadCommand rom (s.setInputs rest))) :
    Writer s (loadCommand rom (s.setInputs rest)) p := by
  refine .load rom rest next ?_
  obtain ⟨-, ht⟩ | ⟨-, -, ht⟩ | ⟨-, -, ht⟩ := loadCommand_cases rom (s.setInputs rest) <;> rw [ht] at hp
  · exact absurd (p.same_refl _) hp
  · obtain ⟨k, -, hmem⟩ | hresponse := ((frame_putBytes _ _ _).trans (frame_setLoadResponse _ _)).written hp
    · exact .inr ⟨_, hmem⟩
    · exact .inl hresponse
  · exact .inl ((frame_setLoadResponse _ _).written hp)

theorem Writer.of_tick {rest : List Command} (next : s.inputs = .tick :: rest)
    (hp : ¬ p.same (s.setInputs rest) (tickCommand (s.setInputs rest))) :
    Writer s (tickCommand (s.setInputs rest)) p := by
  refine .tick rest next ?_
  obtain ⟨-, ht⟩ | ⟨-, -, ht⟩ := tickCommand_cases (s.setInputs rest) <;> rw [ht] at hp
  · exact absurd (p.same_refl _) hp
  · exact (frame_setDt _ _).written hp

theorem Writer.of_keyDown {k : KeyIndex} {rest : List Command} (next : s.inputs = .keyDown k :: rest)
    (hp : ¬ p.same (s.setInputs rest) (keyDownCommand k (s.setInputs rest))) :
    Writer s (keyDownCommand k (s.setInputs rest)) p := by
  refine .keyDown k rest next ?_
  obtain ⟨-, ht⟩ | ⟨-, ht⟩ := keyDownCommand_cases k (s.setInputs rest) <;> rw [ht] at hp
  · exact absurd (p.same_refl _) hp
  · exact (frame_setKey _ _ _).written hp

theorem Writer.of_keyUp {k : KeyIndex} {rest : List Command} (next : s.inputs = .keyUp k :: rest)
    (ht : keyUpCommand k (s.setInputs rest) = .next t) (hp : ¬ p.same (s.setInputs rest) t) : Writer s t p := by
  obtain ⟨-, rfl⟩ | ⟨-, rfl⟩ | ⟨-, x, -, rfl⟩ := keyUpCommand_cases ht
  · exact absurd (p.same_refl _) hp
  · exact .keyUp k rest next ((frame_setKey _ _ _).written hp)
  · obtain (hkey | hreg) | hexec :=
      (((frame_setKey _ k false).trans (frame_setReg _ x _)).trans (frame_setExecState _ _)).written hp
    · exact .keyUp k rest next hkey
    · exact .wake k rest next rfl (.inr ⟨x, hreg⟩)
    · exact .wake k rest next rfl (.inl hexec)

/-- Every part that a step changes has a writer. -/
theorem step_writer (h : step s = .next t) (hp : ¬ p.same s t) : Writer s t p := by
  cases step_kind h with
  | fetchFault r rest _ hrunning _ ht => subst ht; exact .of_begun hp (.of_enterFaulted hrunning)
  | unknown r rest w e _ hrunning _ _ ht => subst ht; exact .of_begun hp (.of_enterFaulted hrunning)
  | runs r rest w i hs hrunning hf hd ht =>
    refine .of_begun (r := r) (rest := rest) hp fun hp => ?_
    obtain ⟨k, -, rfl⟩ | ⟨-, rfl⟩ := exec_cases ht
    · exact .of_enterFaulted hrunning hp
    · have hwrites : mayWrite i s p := mayWrite_begun.mp ((completed_frame i _).written hp)
      exact .instr i r rest ⟨⟨r, rest, hs⟩, hrunning, w, hf, hd⟩ hwrites rfl
  | idle r rest _ _ ht => subst ht; exact .of_setInputs rest hp fun hp => absurd (p.same_refl _) hp
  | reset rest next ht => subst ht; exact .reset rest next rfl
  | load rom rest next ht => subst ht; exact .of_setInputs rest hp (.of_load next)
  | tick rest next ht => subst ht; exact .of_setInputs rest hp (.of_tick next)
  | keyDown k rest next ht => subst ht; exact .of_setInputs rest hp (.of_keyDown next)
  | keyUp k rest next ht => exact .of_setInputs rest hp (.of_keyUp next ht)

end

/-! ### Which instructions may write a part -/

section
variable {s : State} {i : Instr}

theorem mayWrite_mem {a : Nat} (h : mayWrite i s (.mem a)) :
    (∃ x k, k < 3 ∧ i = .ldBVx x ∧ a = s.i.toNat + k) ∨
    (∃ x k, k ≤ x.val ∧ i = .storeRegs x ∧ a = s.i.toNat + k) := by
  cases i with
  | ldBVx x =>
    obtain h | ⟨k, hk, ha⟩ := h
    · cases h
    · exact .inl ⟨x, k, hk, rfl, Part.mem.inj ha⟩
  | storeRegs x =>
    obtain h | h | ⟨k, hk, ha⟩ := h
    · cases h
    · cases h
    · exact .inr ⟨x, k, hk, rfl, Part.mem.inj ha⟩
  | _ => simp [mayWrite] at h

theorem mayWrite_pixel {px : Fin Config.fbWidth} {py : Fin Config.fbHeight} (h : mayWrite i s (.pixel px py)) :
    i = .cls ∨ ∃ x y n, i = .drw x y n := by
  cases i with
  | cls => exact .inl rfl
  | drw x y n => exact .inr ⟨x, y, n, rfl⟩
  | _ => simp [mayWrite] at h

theorem mayWrite_dt (h : mayWrite i s .dt) : ∃ x, i = .ldDtVx x := by
  cases i with
  | ldDtVx x => exact ⟨x, rfl⟩
  | _ => simp [mayWrite] at h

theorem not_mayWrite_key {k : KeyIndex} : ¬ mayWrite i s (.key k) := by cases i <;> simp [mayWrite]

theorem mayWrite_execState (h : mayWrite i s .execState) : ∃ x, i = .ldVxK x := by
  cases i with
  | ldVxK x => exact ⟨x, rfl⟩
  | _ => simp [mayWrite] at h

end

/-! ### The rules -/

/-- Settles O16: EXEC changed, and FX0A alone changes it to WaitingForKey. -/
theorem keyWaitStartsOnlyByFX0A : Obligations.KeyWaitStartsOnlyByFX0A := by
  intro s t h hs ht
  cases step_writer (p := .execState) h fun hsame => hs (hsame.symm.trans ht) with
  | instr i r rest hx hw hresult =>
    obtain ⟨x, rfl⟩ := mayWrite_execState hw
    subst hresult
    exact ⟨x, hx, zextNibble_toNat x, rfl⟩
  | fatal _ _ he | reset _ _ he | wake _ _ _ he => cases he.symm.trans ht
  | bookkeeping hp | load _ _ _ hp | tick _ _ hp | keyDown _ _ _ hp | keyUp _ _ _ hp => simp at hp

/-- Settles O17: EXEC changed, and outside Running no instruction and no fatal error changes it. -/
theorem keyWaitEndsOnlyByKeyUpOrReset : Obligations.KeyWaitEndsOnlyByKeyUpOrReset := by
  intro s t h hs ht
  cases step_writer (p := .execState) h fun hsame => ht (hsame.trans hs) with
  | reset rest next hrunning => exact ⟨hrunning, rest, .inl next⟩
  | wake k rest next hrunning => exact ⟨hrunning, rest, .inr ⟨k, next⟩⟩
  | instr i r rest hx =>
    obtain ⟨-, hrunning, -⟩ := hx
    cases hrunning.symm.trans hs
  | fatal _ hrunning => cases hrunning.symm.trans hs
  | bookkeeping hp | load _ _ _ hp | tick _ _ hp | keyDown _ _ _ hp | keyUp _ _ _ hp => simp at hp

/-- Settles O18: the memory part of `step_writer`. -/
theorem memoryChangesOnlyByItsWriters : Obligations.MemoryChangesOnlyByItsWriters := by
  intro s t a h hchanged
  cases step_writer (p := .mem a) h hchanged with
  | reset rest next => exact .inl ⟨rest, next⟩
  | load rom rest next => exact .inr (.inl ⟨rom, rest, next⟩)
  | instr i r rest hx hw =>
    obtain ⟨x, k, hk, rfl, ha⟩ | ⟨x, k, hk, rfl, ha⟩ := mayWrite_mem hw
    · exact .inr (.inr (.inl ⟨x, k, hk, hx, ha⟩))
    · exact .inr (.inr (.inr ⟨x, k, hk, hx, ha⟩))
  | bookkeeping hp | fatal hp | tick _ _ hp | keyDown _ _ _ hp | keyUp _ _ _ hp | wake _ _ _ _ hp => simp at hp

/-- Settles O19: of the two instructions that write pixels, a draw turns none off. -/
theorem pixelsGoOffOnlyByClearOrReset : Obligations.PixelsGoOffOnlyByClearOrReset := by
  intro s t px py h hon hoff
  have hchanged : ¬ Part.same (.pixel px py) s t := fun hsame => by cases (hoff.symm.trans hsame).trans hon
  cases step_writer h hchanged with
  | reset rest next => exact .inl ⟨rest, next⟩
  | instr i r rest hx hw hresult =>
    obtain rfl | ⟨x, y, n, rfl⟩ := mayWrite_pixel hw
    · exact .inr hx
    · subst hresult
      cases (drawn_keeps_on (s := s.begun r rest) (n := n) x y hon).symm.trans hoff
  | bookkeeping hp | fatal hp | load _ _ _ hp | tick _ _ hp | keyDown _ _ _ hp | keyUp _ _ _ hp | wake _ _ _ _ hp =>
    simp at hp

/-- Settles O20: the DT part of `step_writer`. -/
theorem delayTimerChangesOnlyByItsWriters : Obligations.DelayTimerChangesOnlyByItsWriters := by
  intro s t h hchanged
  cases step_writer (p := .dt) h hchanged with
  | reset rest next => exact .inl ⟨rest, .inl next⟩
  | tick rest next => exact .inl ⟨rest, .inr next⟩
  | instr i r rest hx hw =>
    obtain ⟨x, rfl⟩ := mayWrite_dt hw
    exact .inr ⟨x, hx⟩
  | bookkeeping hp | fatal hp | load _ _ _ hp | keyDown _ _ _ hp | keyUp _ _ _ hp | wake _ _ _ _ hp => simp at hp

/-- Settles O21: the key part of `step_writer`. -/
theorem keysChangeOnlyByHostEvents : Obligations.KeysChangeOnlyByHostEvents := by
  intro s t k h hchanged
  cases step_writer (p := .key k) h hchanged with
  | reset rest next => exact ⟨rest, .inl next⟩
  | keyDown j rest next hp => cases Part.key.inj hp; exact ⟨rest, .inr (.inl next)⟩
  | keyUp j rest next hp => cases Part.key.inj hp; exact ⟨rest, .inr (.inr next)⟩
  | instr i r rest hx hw => exact absurd hw not_mayWrite_key
  | bookkeeping hp | fatal hp | load _ _ _ hp | tick _ _ hp | wake _ _ _ _ hp => simp at hp

end Sys2Proof.Machine
end
